-- ==== Sys2Proof/Word.lean ====
section
/-!
DEFINITION. The block's data types at its edge (`00_scope.md` R8): a byte, a 16-bit value, and what the environment may
place at the block's input: a word on the command port (R53) or a chunk of the receive stream (R98).
-/
namespace Sys2Proof

/-- An unsigned 8-bit value, `u8` (R8). -/
abbrev Byte := BitVec 8

/-- An unsigned 16-bit value, `u16` (R8): the checksum and its accumulator (R12). -/
abbrev Half := BitVec 16

/-- One transaction on the optional command port of R53: `op[2:0]` selects the operation, `data` carries the one-byte
operand (`b` of `CHK_BYTE` and `RX_PUSH`, `commandId` of `ENC`), `payload` carries `ENC`'s byte sequence.
DESIGN CHOICE (log 5): R53 gives the number and the operands; this grouping of them is the model's. -/
structure PortWord where
  op      : BitVec 3
  data    : Byte
  payload : List Byte
  deriving DecidableEq, Repr

/-- What the environment asks of the block: an operation on the command port, or a chunk of bytes from the transport,
pushed byte by byte and followed by one attempt (R56 `RX_CHUNK`, R98). DESIGN CHOICE (log 4, log 5). -/
inductive Request where
  | port  (w : PortWord)
  | chunk (bytes : List Byte)
  deriving DecidableEq, Repr

end Sys2Proof
end

