-- ==== Sys2Proof/Syntax.lean ====
section
/-!
DEFINITION. The instruction set in its two layers (`00_scope.md` R2): the 22 frame kinds of the wire layer and the seven
operations of the operation layer, one constructor per row of the opcode table.
-/
namespace Sys2Proof

/-- The operands of a frame: what stands behind its start byte, command id and length byte (`30_encoding.md` R40). The
length byte is the payload's length (R43). The last three bytes are operands and not constants, because a frame on the
wire may carry wrong ones, which the reassembler reports (R86, R87). -/
structure FrameBody where
  payload    : List Byte
  checksumHi : Byte
  checksumLo : Byte
  stop       : Byte
  deriving DecidableEq, Repr

/-- One constructor per row of the opcode table. A frame kind is the frame of that CommandId arriving whole on the
receive wire (R56 `RX_CHUNK`, R98, R100(b); log 6); an operation is one of R53's seven. -/
inductive Instr where
  /-- `reset`, CommandId `0x01` (R101). -/
  | reset (f : FrameBody)
  /-- `request-version`, CommandId `0x02` (R102). -/
  | requestVersion (f : FrameBody)
  /-- `get-setting`, CommandId `0x03` (R103). -/
  | getSetting (f : FrameBody)
  /-- `update-setting`, CommandId `0x04` (R104). -/
  | updateSetting (f : FrameBody)
  /-- `ping`, CommandId `0x05` (R105). -/
  | ping (f : FrameBody)
  /-- `set-serial-number`, CommandId `0x06` (R106). -/
  | setSerialNumber (f : FrameBody)
  /-- `sync-time`, CommandId `0x07` (R107). -/
  | syncTime (f : FrameBody)
  /-- `get-real-time`, CommandId `0x08` (R108). -/
  | getRealTime (f : FrameBody)
  /-- `reset-default`, CommandId `0x09` (R109). -/
  | resetDefault (f : FrameBody)
  /-- `change-volume`, CommandId `0x10` (R110). -/
  | changeVolume (f : FrameBody)
  /-- `push-color`, CommandId `0x11` (R111). -/
  | pushColor (f : FrameBody)
  /-- `mix-color`, CommandId `0x12` (R112). -/
  | mixColor (f : FrameBody)
  /-- `control-io`, CommandId `0x13` (R113). -/
  | controlIo (f : FrameBody)
  /-- `calibration`, CommandId `0x14` (R114). -/
  | calibration (f : FrameBody)
  /-- `door-control`, CommandId `0x15` (R115). -/
  | doorControl (f : FrameBody)
  /-- `set-expire/usage-time`, CommandId `0x16` (R116). -/
  | setExpireUsageTime (f : FrameBody)
  /-- `get-expire/usage-time`, CommandId `0x17` (R117). -/
  | getExpireUsageTime (f : FrameBody)
  /-- `push-color-with-direction`, CommandId `0x19` (R118). -/
  | pushColorWithDirection (f : FrameBody)
  /-- `device-error`, CommandId `0x30` (R119). -/
  | deviceError (f : FrameBody)
  /-- `input-status`, CommandId `0x31` (R120). -/
  | inputStatus (f : FrameBody)
  /-- `machine-status`, CommandId `0x32` (R121). -/
  | machineStatus (f : FrameBody)
  /-- `pipeline-status`, CommandId `0x33` (R122). -/
  | pipelineStatus (f : FrameBody)
  /-- `CHK_CLEAR`, op 0 (R64). -/
  | chkClear
  /-- `CHK_BYTE(b)`, op 1 (R65). -/
  | chkByte (b : Byte)
  /-- `CHK_READ`, op 2 (R66). -/
  | chkRead
  /-- `ENC(cmd, p)`, op 3 (R67). -/
  | enc (cmd : Byte) (p : List Byte)
  /-- `RX_PUSH(b)`, op 4 (R78). -/
  | rxPush (b : Byte)
  /-- `RX_ATTEMPT`, op 5 (R79). -/
  | rxAttempt
  /-- `RESET`, op 7 (R141); not the protocol command `reset`. -/
  | blockReset
  deriving DecidableEq, Repr

end Sys2Proof
end

