-- ==== Sys2Proof/WellFormed.lean ====
section
/-!
DEFINITION. Which instruction terms have an encoding. One check: a frame's payload is at most 255 bytes (R43).
-/
namespace Sys2Proof

/-- R43: the length is "an unsigned 8-bit count, so payloads are capped at 255 bytes". -/
def FrameBody.wellFormed (f : FrameBody) : Bool := decide (f.payload.length ≤ 255)

/-- A frame kind needs a payload its length byte can count. Every operand of an operation is legal: an unrecognised
CommandId and an over-long payload are inputs of `ENC` that it reports (R68), not terms without an encoding. -/
def Instr.wellFormed : Instr → Bool
  | .reset f => f.wellFormed
  | .requestVersion f => f.wellFormed
  | .getSetting f => f.wellFormed
  | .updateSetting f => f.wellFormed
  | .ping f => f.wellFormed
  | .setSerialNumber f => f.wellFormed
  | .syncTime f => f.wellFormed
  | .getRealTime f => f.wellFormed
  | .resetDefault f => f.wellFormed
  | .changeVolume f => f.wellFormed
  | .pushColor f => f.wellFormed
  | .mixColor f => f.wellFormed
  | .controlIo f => f.wellFormed
  | .calibration f => f.wellFormed
  | .doorControl f => f.wellFormed
  | .setExpireUsageTime f => f.wellFormed
  | .getExpireUsageTime f => f.wellFormed
  | .pushColorWithDirection f => f.wellFormed
  | .deviceError f => f.wellFormed
  | .inputStatus f => f.wellFormed
  | .machineStatus f => f.wellFormed
  | .pipelineStatus f => f.wellFormed
  | .chkClear => true
  | .chkByte _ => true
  | .chkRead => true
  | .enc _ _ => true
  | .rxPush _ => true
  | .rxAttempt => true
  | .blockReset => true

end Sys2Proof
end

