-- ==== Sys2Proof/Decode.lean ====
section
/-!
DEFINITION. Encodings (`30_encoding.md`): the frame format (R40-R51), the CommandId map (R47), the operation numbers
(R53), the opcode table's numbering (R52); the decoder, total on any request, and the encoder.
-/
namespace Sys2Proof

/-- The start delimiter (R6, R41). -/
def START : Byte := 0x78#8

/-- The stop delimiter (R6, R46). -/
def STOP : Byte := 0x79#8

/-- `v in KNOWN`, as R47's predicate on a byte states it. -/
def isKnown (v : Byte) : Bool :=
  (decide (0x01 ≤ v.toNat) && decide (v.toNat ≤ 0x09)) || (decide (0x10 ≤ v.toNat) && decide (v.toNat ≤ 0x17)) ||
    decide (v.toNat = 0x19) || (decide (0x30 ≤ v.toNat) && decide (v.toNat ≤ 0x33))

/-- The bytes of a frame on the wire, in the order of R40: start, command id, length, payload, checksum high byte,
checksum low byte, stop. -/
def frameBytes (cmd : Byte) (f : FrameBody) : List Byte :=
  START :: cmd :: BitVec.ofNat 8 f.payload.length :: (f.payload ++ [f.checksumHi, f.checksumLo, f.stop])

/-- Why a request is no instruction of the table. -/
inductive DecodeError where
  /-- `op = 6`: no operation has this number (R53). -/
  | reservedOp
  /-- Fewer than three bytes: no whole header (R40). -/
  | shortHeader
  /-- The first byte is not `0x78` (R41). -/
  | noStartByte
  /-- The command id is outside `KNOWN` (R50). -/
  | unrecognisedCommand
  /-- Fewer bytes than the length byte announces (R51). -/
  | incompleteFrame
  /-- The chunk holds bytes behind its first frame. -/
  | trailingBytes
  deriving DecidableEq, Repr

/-- The frame kind of a CommandId, by the table of R47; `none` outside it. -/
def frameKind (cmd : Byte) (f : FrameBody) : Option Instr :=
  match cmd.toNat with
  | 0x01 => some (.reset f)
  | 0x02 => some (.requestVersion f)
  | 0x03 => some (.getSetting f)
  | 0x04 => some (.updateSetting f)
  | 0x05 => some (.ping f)
  | 0x06 => some (.setSerialNumber f)
  | 0x07 => some (.syncTime f)
  | 0x08 => some (.getRealTime f)
  | 0x09 => some (.resetDefault f)
  | 0x10 => some (.changeVolume f)
  | 0x11 => some (.pushColor f)
  | 0x12 => some (.mixColor f)
  | 0x13 => some (.controlIo f)
  | 0x14 => some (.calibration f)
  | 0x15 => some (.doorControl f)
  | 0x16 => some (.setExpireUsageTime f)
  | 0x17 => some (.getExpireUsageTime f)
  | 0x19 => some (.pushColorWithDirection f)
  | 0x30 => some (.deviceError f)
  | 0x31 => some (.inputStatus f)
  | 0x32 => some (.machineStatus f)
  | 0x33 => some (.pipelineStatus f)
  | _ => none

/-- Reads one frame off the front of a byte sequence and returns the rest. The length byte alone says how long the
frame is (R51). -/
def decodeFrame : List Byte → Except DecodeError (Instr × List Byte)
  | start :: cmd :: len :: rest =>
    if start ≠ START then .error .noStartByte
    else if isKnown cmd = false then .error .unrecognisedCommand
    else match rest.drop len.toNat with
      | hi :: lo :: stop :: more =>
        match frameKind cmd ⟨rest.take len.toNat, hi, lo, stop⟩ with
        | some i => .ok (i, more)
        | none => .error .unrecognisedCommand
      | _ => .error .incompleteFrame
  | _ => .error .shortHeader

/-- The operation of a command-port word, by R53's numbers. A word's unused operand lines are not looked at. -/
def decodePort (w : PortWord) : Except DecodeError Instr :=
  match w.op.toNat with
  | 0 => .ok .chkClear
  | 1 => .ok (.chkByte w.data)
  | 2 => .ok .chkRead
  | 3 => .ok (.enc w.data w.payload)
  | 4 => .ok (.rxPush w.data)
  | 5 => .ok .rxAttempt
  | 7 => .ok .blockReset
  | _ => .error .reservedOp

/-- The instruction a request stands for: an operation, or the one frame that a chunk consists of. -/
def decode : Request → Except DecodeError Instr
  | .port w => decodePort w
  | .chunk bytes =>
    match decodeFrame bytes with
    | .ok (i, []) => .ok i
    | .ok (_, _ :: _) => .error .trailingBytes
    | .error e => .error e

/-- The request that an instruction is: R40's frame, or R53's operation number with its operands. -/
def encode : Instr → Request
  | .reset f => .chunk (frameBytes 0x01#8 f)
  | .requestVersion f => .chunk (frameBytes 0x02#8 f)
  | .getSetting f => .chunk (frameBytes 0x03#8 f)
  | .updateSetting f => .chunk (frameBytes 0x04#8 f)
  | .ping f => .chunk (frameBytes 0x05#8 f)
  | .setSerialNumber f => .chunk (frameBytes 0x06#8 f)
  | .syncTime f => .chunk (frameBytes 0x07#8 f)
  | .getRealTime f => .chunk (frameBytes 0x08#8 f)
  | .resetDefault f => .chunk (frameBytes 0x09#8 f)
  | .changeVolume f => .chunk (frameBytes 0x10#8 f)
  | .pushColor f => .chunk (frameBytes 0x11#8 f)
  | .mixColor f => .chunk (frameBytes 0x12#8 f)
  | .controlIo f => .chunk (frameBytes 0x13#8 f)
  | .calibration f => .chunk (frameBytes 0x14#8 f)
  | .doorControl f => .chunk (frameBytes 0x15#8 f)
  | .setExpireUsageTime f => .chunk (frameBytes 0x16#8 f)
  | .getExpireUsageTime f => .chunk (frameBytes 0x17#8 f)
  | .pushColorWithDirection f => .chunk (frameBytes 0x19#8 f)
  | .deviceError f => .chunk (frameBytes 0x30#8 f)
  | .inputStatus f => .chunk (frameBytes 0x31#8 f)
  | .machineStatus f => .chunk (frameBytes 0x32#8 f)
  | .pipelineStatus f => .chunk (frameBytes 0x33#8 f)
  | .chkClear => .port ⟨0, 0, []⟩
  | .chkByte b => .port ⟨1, b, []⟩
  | .chkRead => .port ⟨2, 0, []⟩
  | .enc cmd p => .port ⟨3, cmd, p⟩
  | .rxPush b => .port ⟨4, b, []⟩
  | .rxAttempt => .port ⟨5, 0, []⟩
  | .blockReset => .port ⟨7, 0, []⟩

/-- The header word of R52 as bytes, first byte first: frame byte 0 in bits 23:16, byte 1 in 15:8, byte 2 in 7:0. -/
def headerBytes (h : Nat) : List Byte :=
  [BitVec.ofNat 8 (h / 65536), BitVec.ofNat 8 (h / 256), BitVec.ofNat 8 h]

/-- The request that a row of the opcode table and a word of it stand for. An operation row has one byte, whose low
three bits are `op[2:0]` (R53, mask `0x7`), and operands zero. A frame row has the 24-bit header word of R52 and the
bytes the header announces behind it, zero too (log 13). -/
def tableRequest (nbits w : Nat) : Request :=
  if nbits ≤ 8 then .port ⟨BitVec.ofNat 3 w, 0, []⟩
  else .chunk (headerBytes w ++ List.replicate (w % 256 + 3) 0#8)

/-- The instruction the decoder reads from a word of the opcode table. -/
def decodeTableWord (nbits w : Nat) : Option Instr :=
  match decode (tableRequest nbits w) with
  | .ok i => some i
  | .error _ => none

end Sys2Proof
end

