-- ==== Sys2Proof/Config.lean ====
section
/-!
DEFINITION. The open parameters of the block (`00_scope.md` R6): the overflow ceiling and the buffer's capacity.
-/
namespace Sys2Proof

/-- The two open parameters of R6, fixed when the block is built and not writable at run time (R18). They are carried
in the state (log 1), so that a statement about every state is one about every value of them. -/
structure Params where
  rxCeiling : Nat
  rxCap     : Nat
  deriving DecidableEq, Repr

/-- R6: `RX_CEILING >= 1` and `RX_CAP >= RX_CEILING + 1`. The block is not defined for other values
(`93_implementation_defined.md` S8). -/
def Params.legal (p : Params) : Bool := decide (1 ≤ p.rxCeiling) && decide (p.rxCeiling + 1 ≤ p.rxCap)

/-- DESIGN CHOICE (log 1): the instance the spec's own vectors use unless they say otherwise (`95_test_vectors.md`):
one of D0's two deployed ceilings, and R6's recommended `RX_CEILING + 261`. Only `State.reset` names it. -/
def Config.deployed : Params := { rxCeiling := 128, rxCap := 389 }

end Sys2Proof
end

