-- ==== Sys2Proof/Machine/State.lean ====
section
/-!
DEFINITION. The state of the block (`10_state.md`), the output records its operations report (R17, R54), and the reasons
a step can stop.
-/
namespace Sys2Proof.Machine

/-- The receive buffer `rx_buf[0 .. rx_fill)` (R14, R15): element `i` is the byte at logical index `i`, index 0 the
oldest. D26: "A model represents the buffer as a list of length `rx_fill`"; cells at or beyond `rx_fill` do not exist
(S1; log 11). -/
abbrev Memory := List Byte

/-- R22 of a buffer: it holds at most `RX_CAP` bytes. Its addresses are the list's indices, so they rise by
construction (`Memory.cells`). -/
def Memory.wf (cap : Nat) (m : Memory) : Bool := decide (m.length ≤ cap)

/-- The buffer as (logical index, byte) pairs. -/
def Memory.cells (m : Memory) : List Host.Cell := m.zipIdx.map fun p => (p.2, p.1)

/-- The result class of an attempt (R54). -/
inductive Status where
  | needMoreData
  | invalid
  | ok
  deriving DecidableEq, Repr

/-- The sub-code of `Invalid` (R54); `noReason` is the table's `None`. -/
inductive Reason where
  | noReason
  | badCommand
  | badChecksum
  | badStop
  deriving DecidableEq, Repr

/-- The result of an `ENC` (R54); `noError` is the table's `None`. -/
inductive EncErr where
  | noError
  | encBadCommand
  | encTooLong
  deriving DecidableEq, Repr

/-- D0's two classes of request/response CommandIds and its status pushes (R48). -/
inductive CommandClass where
  | generic
  | function
  | statusPush
  deriving DecidableEq, Repr

/-- What an `Ok` attempt hands out (R79, D19): `s`, `commandId`, `L`, `payload`. -/
structure Frame where
  start     : Nat
  commandId : Byte
  length    : Byte
  payload   : List Byte
  deriving DecidableEq, Repr

/-- What `tryExtract` answers (R80). `frame` is absent unless the status is `Ok` (R79, S2). -/
structure Verdict where
  status   : Status
  reason   : Reason
  consumed : Nat
  frame    : Option Frame
  deriving DecidableEq, Repr

/-- The output record of one operation (R9 item 8, R17). -/
inductive Output where
  /-- `CHK_CLEAR`, `CHK_BYTE`, `RESET`: "Output: none" (R64, R65, R141). -/
  | nothing
  /-- `CHK_READ -> value` (R66). -/
  | chkValue (value : Half)
  /-- `ENC -> (enc_err, frame)` (R67). -/
  | encoded (err : EncErr) (frame : List Byte)
  /-- `RX_PUSH -> accepted` (R78). -/
  | pushed (accepted : Bool)
  /-- `RX_ATTEMPT -> (status, reason, consumed, flushed, s, commandId, L, payload)` (R79). -/
  | attempted (verdict : Verdict) (flushed : Bool)
  deriving DecidableEq, Repr

/-- The machine's state. -/
structure State where
  /-- `RX_CEILING` and `RX_CAP` (R6): constant; no operation writes them (R18). The model's own field (log 1). -/
  params    : Params
  /-- `chk_acc` (R12). -/
  chkAcc    : Half
  /-- `rx_buf[0 .. rx_fill)` (R14); its length is `rx_fill` (R15). -/
  rxBuf     : Memory
  /-- `rx_overrun`, sticky (R16). -/
  rxOverrun : Bool
  /-- What the environment has asked for and the block has not served, oldest first. The model's own field (log 4). -/
  requests  : List Request
  /-- The output records delivered so far, newest first. The model's own field (log 7). -/
  outputs   : List Output
  /-- The bytes delivered to the byte sink so far, first byte first (R67). The model's own field (log 8). -/
  sink      : List Byte
  deriving DecidableEq, Repr

/-- `rx_fill` (R15): the number of bytes in the receive buffer. -/
def State.rxFill (s : State) : Nat := s.rxBuf.length

/-- Why the machine stops with a fault. -/
inductive Fault where
  /-- Raised by `Memory.read` at a logical index that does not exist (R27, R34: "everything else does not exist").
  Safe. R27: "a read at or beyond `rx_fill` never happens", so no operation ends in it. -/
  | noSuchCell (index : Nat)
  deriving DecidableEq, Repr

/-- Why a step is given no meaning. -/
inductive Refusal where
  /-- Raised by `exec` for an instruction without a meaning. Safe. No arm of this model raises it. -/
  | notModelled (mnemonic : String)
  /-- Raised by `step` when the parameters break R6 (S8: "`refuse`: the block is not defined for them"). Safe. -/
  | illegalParameters
  deriving DecidableEq, Repr

/-- R142: the state after power-up is the state after `RESET`. The parameters are log 1's choice; the environment has
asked for nothing and been given nothing (log 12). -/
def State.reset : State where
  params    := Config.deployed
  chkAcc    := 0x0000#16
  rxBuf     := []
  rxOverrun := false
  requests  := []
  outputs   := []
  sink      := []

end Sys2Proof.Machine
end

