-- ==== Sys2Proof/Machine/Ops.lean ====
section
/-!
DEFINITION. The named operations over the receive buffer and the registers, and the one way an operation reports its
outcome, error conditions included (`60_exceptions.md` R134: nothing is saved and control goes nowhere).
-/
namespace Sys2Proof.Machine

/-- `MemRead(i, 1)`, defined only for `i < rx_fill` (R27). It changes nothing (R28). -/
def Memory.read (m : Memory) (i : Nat) : Except Fault Byte :=
  match m[i]? with
  | some b => .ok b
  | none => .error (.noSuchCell i)

/-- The bytes at logical indices `i .. i+n-1`, one single-byte read each (R32). -/
def Memory.readSeq (m : Memory) (i : Nat) : Nat → Except Fault (List Byte)
  | 0 => .ok []
  | n + 1 =>
    match m.read i with
    | .error e => .error e
    | .ok b =>
      match m.readSeq (i + 1) n with
      | .error e => .error e
      | .ok bs => .ok (b :: bs)

/-- `MemWrite(rx_fill, 1, b)` and `rx_fill <- rx_fill + 1` (R25). -/
def Memory.append (m : Memory) (b : Byte) : Memory := m ++ [b]

/-- Removal of the first `n` bytes: what was at index `n + i` is now at `i` (R26). -/
def Memory.removePrefix (m : Memory) (n : Nat) : Memory := m.drop n

/-- `rx_fill <- 0` (R90, R141). -/
def Memory.clear (_ : Memory) : Memory := []

/-- `chk_acc <- v` (R12). -/
def State.setChkAcc (s : State) (v : Half) : State := { s with chkAcc := v }

/-- Puts a receive buffer in place (R14). -/
def State.setRxBuf (s : State) (m : Memory) : State := { s with rxBuf := m }

/-- `rx_overrun <- v` (R16). -/
def State.setRxOverrun (s : State) (v : Bool) : State := { s with rxOverrun := v }

/-- Delivers one output record to the environment: how every operation ends, in success or in one of the error
conditions of R124 (R17, R134). -/
def State.report (s : State) (o : Output) : State := { s with outputs := o :: s.outputs }

/-- Delivers bytes to the byte sink, in order and contiguously (R67, R72). The sink always takes them (R39). -/
def State.deliver (s : State) (bytes : List Byte) : State := { s with sink := s.sink ++ bytes }

/-- Replaces what the environment still asks for. -/
def State.setRequests (s : State) (rs : List Request) : State := { s with requests := rs }

/-- The oldest request not yet served, taken off the list (R35: one at a time, in the order accepted). -/
def takeRequest (s : State) : Option (Request × State) :=
  match s.requests with
  | [] => none
  | r :: rs => some (r, s.setRequests rs)

end Sys2Proof.Machine
end

