-- ==== Sys2Proof/Machine/Operands.lean ====
section
/-!
DEFINITION. The checksum function (`40_checksum.md`), the 16-bit big-endian field (`30_encoding.md` R49), the frame that
`ENC` builds (`41_frame_encoder.md` R67) and the classes of CommandIds (R48).
-/
namespace Sys2Proof.Machine

/-- `CHK_STEP(a, b) = (a + zext_16(b)) mod 65536` (R57). The spec's own decision D1 (log 3). -/
def chkStep (a : Half) (b : Byte) : Half := a + b.setWidth 16

/-- `checksum(p)`: the left fold of `CHK_STEP` from `0x0000` over the bytes in order (R57). -/
def checksum (p : List Byte) : Half := p.foldl chkStep 0x0000#16

/-- `c[15:8]` (R8). -/
def hiByte (c : Half) : Byte := c.extractLsb' 8 8

/-- `c[7:0]` (R8). -/
def loByte (c : Half) : Byte := c.extractLsb' 0 8

/-- `(hi << 8) | lo`: how a received pair is put together (R49). -/
def fromBytes (hi lo : Byte) : Half := hi ++ lo

/-- A payload wrapped by the encoder: its checksum, high byte first, and the stop byte (R67, R61). -/
def wrap (p : List Byte) : FrameBody := ⟨p, hiByte (checksum p), loByte (checksum p), STOP⟩

/-- The frame that `ENC` emits for a CommandId and a payload (R67). -/
def encFrame (cmd : Byte) (p : List Byte) : List Byte := frameBytes cmd (wrap p)

/-- R48: codes `0x01`-`0x09`; `0x10`-`0x17` and `0x19`; `0x30`-`0x33`. The class does not change how the block treats
a frame, so no operation reads this. -/
def commandClass (cmd : Byte) : Option CommandClass :=
  if isKnown cmd then
    if cmd.toNat ≤ 0x09 then some .generic
    else if cmd.toNat ≤ 0x19 then some .function
    else some .statusPush
  else none

end Sys2Proof.Machine
end

