-- ==== Sys2Proof/Machine/Checksum.lean ====
section
/-!
DEFINITION. The checksum unit's operations (`40_checksum.md` R64-R66). They always succeed.
-/
namespace Sys2Proof.Machine

/-- `CHK_CLEAR`: `chk_acc <- 0x0000` (R64). -/
def execChkClear (s : State) : Host.Outcome State Fault Refusal :=
  .next ((s.setChkAcc 0x0000#16).report .nothing)

/-- `CHK_BYTE(b)`: `chk_acc <- CHK_STEP(chk_acc, b)` (R65). -/
def execChkByte (b : Byte) (s : State) : Host.Outcome State Fault Refusal :=
  .next ((s.setChkAcc (chkStep s.chkAcc b)).report .nothing)

/-- `CHK_READ -> chk_acc`; no state changes (R66). -/
def execChkRead (s : State) : Host.Outcome State Fault Refusal :=
  .next (s.report (.chkValue s.chkAcc))

end Sys2Proof.Machine
end

