-- ==== Sys2Proof/Machine/Encoder.lean ====
section
/-!
DEFINITION. The frame encoder's operation (`41_frame_encoder.md`).
-/
namespace Sys2Proof.Machine

/-- `ENC(cmd, p)` (R67): the command test first (R68, R133), then the length test, then the frame goes to the byte sink.
A refused `ENC` delivers no byte. `chk_acc` is untouched (R12): the checksum is computed from `p` alone (R70). -/
def execEnc (cmd : Byte) (p : List Byte) (s : State) : Host.Outcome State Fault Refusal :=
  if isKnown cmd = false then .next (s.report (.encoded .encBadCommand []))
  else if 255 < p.length then .next (s.report (.encoded .encTooLong []))
  else .next ((s.deliver (encFrame cmd p)).report (.encoded .noError (encFrame cmd p)))

end Sys2Proof.Machine
end

