-- ==== Sys2Proof/Machine/Flags.lean ====
section
/-!
DEFINITION. The one flag, `rx_overrun` (`10_state.md` R16), the test of the overflow guard (R90), and the numbers of the
result codes (`30_encoding.md` R54).
-/
namespace Sys2Proof.Machine

/-- `rx_fill < RX_CAP`: whether a pushed byte finds room (R78). -/
def State.hasRoom (s : State) : Bool := decide (s.rxFill < s.params.rxCap)

/-- `rx_fill > RX_CEILING`, strictly (R90). -/
def State.overCeiling (s : State) : Bool := decide (s.params.rxCeiling < s.rxFill)

/-- `status[1:0]` (R54). -/
def Status.code : Status → BitVec 2
  | .needMoreData => 0
  | .invalid => 1
  | .ok => 2

/-- `reason[1:0]` (R54). -/
def Reason.code : Reason → BitVec 2
  | .noReason => 0
  | .badCommand => 1
  | .badChecksum => 2
  | .badStop => 3

/-- `enc_err[1:0]` (R54). -/
def EncErr.code : EncErr → BitVec 2
  | .noError => 0
  | .encBadCommand => 1
  | .encTooLong => 2

end Sys2Proof.Machine
end

