-- ==== Sys2Proof/Machine/Reassembler.lean ====
section
/-!
DEFINITION. The stream reassembler (`42_stream_reassembler.md`): `RX_PUSH`, the function `tryExtract`, `RX_ATTEMPT`, and
the receive loop's chunk (`30_encoding.md` R56).
-/
namespace Sys2Proof.Machine

/-- `RX_PUSH(b)` (R78): the byte is stored when there is room, else it is lost and `rx_overrun` is set (R131). -/
def rxPush (b : Byte) (s : State) : State :=
  if s.hasRoom then (s.setRxBuf (s.rxBuf.append b)).report (.pushed true)
  else (s.setRxOverrun true).report (.pushed false)

/-- `(NeedMoreData, None, 0)` (R80). -/
def needMore : Verdict := ⟨.needMoreData, .noReason, 0, none⟩

/-- `(Invalid, r, 0)` (R80). -/
def invalidFrame (r : Reason) : Verdict := ⟨.invalid, r, 0, none⟩

/-- `(Ok, None, s + L + 6, s, cmd, L, payload)` (R80 step 6, R88). -/
def okFrame (s : Nat) (cmd len : Byte) (payload : List Byte) : Verdict :=
  ⟨.ok, .noReason, s + len.toNat + 6, some ⟨s, cmd, len, payload⟩⟩

/-- Step 1: the least index holding `0x78`, from index 0 on every attempt (R81). -/
def findStart (m : Memory) : Option Nat := m.findIdx? fun b => decide (b = START)

/-- Steps 5 and 6: the stop byte at `s+5+L` (R87), then success (R88). -/
def checkStop (m : Memory) (s : Nat) (cmd len : Byte) (payload : List Byte) : Except Fault Verdict :=
  match m.read (s + 5 + len.toNat) with
  | .error e => .error e
  | .ok stop => if stop ≠ STOP then .ok (invalidFrame .badStop) else .ok (okFrame s cmd len payload)

/-- The two received checksum bytes against a checksum (R86, R49: compared one by one). -/
def checkChecksum (m : Memory) (s : Nat) (cmd len : Byte) (payload : List Byte) : Except Fault Verdict :=
  match m.read (s + 3 + len.toNat), m.read (s + 4 + len.toNat) with
  | .ok hi, .ok lo =>
    if hi ≠ hiByte (checksum payload) ∨ lo ≠ loByte (checksum payload) then .ok (invalidFrame .badChecksum)
    else checkStop m s cmd len payload
  | .error e, _ => .error e
  | _, .error e => .error e

/-- Step 3: the length byte (R84), the whole-frame test `n >= s + L + 6` (R85, C1), and the payload region. -/
def checkLength (m : Memory) (s : Nat) (cmd : Byte) : Except Fault Verdict :=
  if m.length < s + 3 then .ok needMore
  else match m.read (s + 2) with
    | .error e => .error e
    | .ok len =>
      if m.length < s + len.toNat + 6 then .ok needMore
      else match m.readSeq (s + 3) len.toNat with
        | .error e => .error e
        | .ok payload => checkChecksum m s cmd len payload

/-- Step 2: the command byte's presence (R82, D11) and the command test (R83). -/
def checkCommand (m : Memory) (s : Nat) : Except Fault Verdict :=
  if m.length < s + 2 then .ok needMore
  else match m.read (s + 1) with
    | .error e => .error e
    | .ok cmd => if isKnown cmd = false then .ok (invalidFrame .badCommand) else checkLength m s cmd

/-- `tryExtract(B, n)`: the six tests in order, the first that decides is reported (R80, R133). It writes nothing. -/
def tryExtract (m : Memory) : Except Fault Verdict :=
  match findStart m with
  | none => .ok needMore
  | some s => checkCommand m s

/-- What an attempt does with its verdict (R79): an `Ok` removes the first `consumed` bytes (R89), any other status
flushes the whole buffer when it is over the ceiling (R90), and leaves it alone otherwise (R91). -/
def concludeAttempt (v : Verdict) (s : State) : State :=
  if v.status = .ok then (s.setRxBuf (s.rxBuf.removePrefix v.consumed)).report (.attempted v false)
  else if s.overCeiling then (s.setRxBuf s.rxBuf.clear).report (.attempted v true)
  else s.report (.attempted v false)

/-- `RX_ATTEMPT` (R79). -/
def rxAttempt (s : State) : Host.Outcome State Fault Refusal :=
  match tryExtract s.rxBuf with
  | .error e => .fault e
  | .ok v => .next (concludeAttempt v s)

/-- Every byte pushed in order, one `RX_PUSH` each (R77). -/
def pushAll (bytes : List Byte) (s : State) : State := bytes.foldl (fun s b => rxPush b s) s

/-- `RX_CHUNK` (R56): D0's receive loop for one chunk, each byte pushed in order, then one attempt (R98). -/
def rxChunk (bytes : List Byte) (s : State) : Host.Outcome State Fault Refusal :=
  rxAttempt (pushAll bytes s)

/-- `RX_PUSH(b)` as an instruction (R78). -/
def execRxPush (b : Byte) (s : State) : Host.Outcome State Fault Refusal := .next (rxPush b s)

/-- `RX_ATTEMPT` as an instruction (R79). -/
def execRxAttempt (s : State) : Host.Outcome State Fault Refusal := rxAttempt s

end Sys2Proof.Machine
end

