-- ==== Sys2Proof/Machine/Frames.lean ====
section
/-!
DEFINITION. The 22 frame kinds of `43_command_catalog.md`. R100: what the block does with every CommandId is the same,
so each meaning is the arrival of that frame on the receive wire, its bytes pushed in order and one attempt made (R56
`RX_CHUNK`, R98; log 6), under its own code. The `ENC` side of R100(a) is `execEnc`, which takes the code as an operand.
-/
namespace Sys2Proof.Machine

/-- R101: a `reset` frame, CommandId `0x01`, arrives. -/
def execReset (f : FrameBody) (s : State) : Host.Outcome State Fault Refusal :=
  rxChunk (frameBytes 0x01#8 f) s

/-- R102: a `request-version` frame, CommandId `0x02`, arrives. -/
def execRequestVersion (f : FrameBody) (s : State) : Host.Outcome State Fault Refusal :=
  rxChunk (frameBytes 0x02#8 f) s

/-- R103: a `get-setting` frame, CommandId `0x03`, arrives. -/
def execGetSetting (f : FrameBody) (s : State) : Host.Outcome State Fault Refusal :=
  rxChunk (frameBytes 0x03#8 f) s

/-- R104: an `update-setting` frame, CommandId `0x04`, arrives. -/
def execUpdateSetting (f : FrameBody) (s : State) : Host.Outcome State Fault Refusal :=
  rxChunk (frameBytes 0x04#8 f) s

/-- R105: a `ping` frame, CommandId `0x05`, arrives. -/
def execPing (f : FrameBody) (s : State) : Host.Outcome State Fault Refusal :=
  rxChunk (frameBytes 0x05#8 f) s

/-- R106: a `set-serial-number` frame, CommandId `0x06`, arrives. -/
def execSetSerialNumber (f : FrameBody) (s : State) : Host.Outcome State Fault Refusal :=
  rxChunk (frameBytes 0x06#8 f) s

/-- R107: a `sync-time` frame, CommandId `0x07`, arrives. -/
def execSyncTime (f : FrameBody) (s : State) : Host.Outcome State Fault Refusal :=
  rxChunk (frameBytes 0x07#8 f) s

/-- R108: a `get-real-time` frame, CommandId `0x08`, arrives. -/
def execGetRealTime (f : FrameBody) (s : State) : Host.Outcome State Fault Refusal :=
  rxChunk (frameBytes 0x08#8 f) s

/-- R109: a `reset-default` frame, CommandId `0x09`, arrives. -/
def execResetDefault (f : FrameBody) (s : State) : Host.Outcome State Fault Refusal :=
  rxChunk (frameBytes 0x09#8 f) s

/-- R110: a `change-volume` frame, CommandId `0x10`, arrives. -/
def execChangeVolume (f : FrameBody) (s : State) : Host.Outcome State Fault Refusal :=
  rxChunk (frameBytes 0x10#8 f) s

/-- R111: a `push-color` frame, CommandId `0x11`, arrives. -/
def execPushColor (f : FrameBody) (s : State) : Host.Outcome State Fault Refusal :=
  rxChunk (frameBytes 0x11#8 f) s

/-- R112: a `mix-color` frame, CommandId `0x12`, arrives. -/
def execMixColor (f : FrameBody) (s : State) : Host.Outcome State Fault Refusal :=
  rxChunk (frameBytes 0x12#8 f) s

/-- R113: a `control-io` frame, CommandId `0x13`, arrives. -/
def execControlIo (f : FrameBody) (s : State) : Host.Outcome State Fault Refusal :=
  rxChunk (frameBytes 0x13#8 f) s

/-- R114: a `calibration` frame, CommandId `0x14`, arrives. -/
def execCalibration (f : FrameBody) (s : State) : Host.Outcome State Fault Refusal :=
  rxChunk (frameBytes 0x14#8 f) s

/-- R115: a `door-control` frame, CommandId `0x15`, arrives. -/
def execDoorControl (f : FrameBody) (s : State) : Host.Outcome State Fault Refusal :=
  rxChunk (frameBytes 0x15#8 f) s

/-- R116: a `set-expire/usage-time` frame, CommandId `0x16`, arrives. -/
def execSetExpireUsageTime (f : FrameBody) (s : State) : Host.Outcome State Fault Refusal :=
  rxChunk (frameBytes 0x16#8 f) s

/-- R117: a `get-expire/usage-time` frame, CommandId `0x17`, arrives. -/
def execGetExpireUsageTime (f : FrameBody) (s : State) : Host.Outcome State Fault Refusal :=
  rxChunk (frameBytes 0x17#8 f) s

/-- R118: a `push-color-with-direction` frame, CommandId `0x19`, arrives. -/
def execPushColorWithDirection (f : FrameBody) (s : State) : Host.Outcome State Fault Refusal :=
  rxChunk (frameBytes 0x19#8 f) s

/-- R119: a `device-error` frame, CommandId `0x30`, arrives. -/
def execDeviceError (f : FrameBody) (s : State) : Host.Outcome State Fault Refusal :=
  rxChunk (frameBytes 0x30#8 f) s

/-- R120: an `input-status` frame, CommandId `0x31`, arrives. -/
def execInputStatus (f : FrameBody) (s : State) : Host.Outcome State Fault Refusal :=
  rxChunk (frameBytes 0x31#8 f) s

/-- R121: a `machine-status` frame, CommandId `0x32`, arrives. -/
def execMachineStatus (f : FrameBody) (s : State) : Host.Outcome State Fault Refusal :=
  rxChunk (frameBytes 0x32#8 f) s

/-- R122: a `pipeline-status` frame, CommandId `0x33`, arrives. -/
def execPipelineStatus (f : FrameBody) (s : State) : Host.Outcome State Fault Refusal :=
  rxChunk (frameBytes 0x33#8 f) s

end Sys2Proof.Machine
end

