-- ==== Sys2Proof/Machine/System.lean ====
section
/-!
DEFINITION. `RESET` (`70_reset_and_hazards.md` R141), and what the block does with a request that is no instruction of
the table.
-/
namespace Sys2Proof.Machine

/-- `RESET` (R141): `chk_acc`, `rx_fill` and `rx_overrun` to their reset values; the parameters are not state and stay
(R18). -/
def execBlockReset (s : State) : Host.Outcome State Fault Refusal :=
  .next ((((s.setChkAcc 0x0000#16).setRxBuf s.rxBuf.clear).setRxOverrun false).report .nothing)

/-- A request that decodes to no instruction. The reserved number on the command port is ignored (R53: "a circuit with a
command port ignores it"; log 9). A chunk that is not one frame is received like any other (R98: every byte pushed in
order, then one attempt; log 10). -/
def serveUndecoded (r : Request) (s : State) : Host.Outcome State Fault Refusal :=
  match r with
  | .port _ => .next s
  | .chunk bytes => rxChunk bytes s

end Sys2Proof.Machine
end

