-- ==== Sys2Proof/Machine/Dispatch.lean ====
section
/-!
DEFINITION. `exec`: one arm per constructor of `Instr`, each a direct call of that instruction's meaning.
-/
namespace Sys2Proof.Machine

def exec (i : Instr) (s : State) : Host.Outcome State Fault Refusal :=
  match i with
  | .reset f => Sys2Proof.Machine.execReset f s
  | .requestVersion f => Sys2Proof.Machine.execRequestVersion f s
  | .getSetting f => Sys2Proof.Machine.execGetSetting f s
  | .updateSetting f => Sys2Proof.Machine.execUpdateSetting f s
  | .ping f => Sys2Proof.Machine.execPing f s
  | .setSerialNumber f => Sys2Proof.Machine.execSetSerialNumber f s
  | .syncTime f => Sys2Proof.Machine.execSyncTime f s
  | .getRealTime f => Sys2Proof.Machine.execGetRealTime f s
  | .resetDefault f => Sys2Proof.Machine.execResetDefault f s
  | .changeVolume f => Sys2Proof.Machine.execChangeVolume f s
  | .pushColor f => Sys2Proof.Machine.execPushColor f s
  | .mixColor f => Sys2Proof.Machine.execMixColor f s
  | .controlIo f => Sys2Proof.Machine.execControlIo f s
  | .calibration f => Sys2Proof.Machine.execCalibration f s
  | .doorControl f => Sys2Proof.Machine.execDoorControl f s
  | .setExpireUsageTime f => Sys2Proof.Machine.execSetExpireUsageTime f s
  | .getExpireUsageTime f => Sys2Proof.Machine.execGetExpireUsageTime f s
  | .pushColorWithDirection f => Sys2Proof.Machine.execPushColorWithDirection f s
  | .deviceError f => Sys2Proof.Machine.execDeviceError f s
  | .inputStatus f => Sys2Proof.Machine.execInputStatus f s
  | .machineStatus f => Sys2Proof.Machine.execMachineStatus f s
  | .pipelineStatus f => Sys2Proof.Machine.execPipelineStatus f s
  | .chkClear => Sys2Proof.Machine.execChkClear s
  | .chkByte b => Sys2Proof.Machine.execChkByte b s
  | .chkRead => Sys2Proof.Machine.execChkRead s
  | .enc cmd p => Sys2Proof.Machine.execEnc cmd p s
  | .rxPush b => Sys2Proof.Machine.execRxPush b s
  | .rxAttempt => Sys2Proof.Machine.execRxAttempt s
  | .blockReset => Sys2Proof.Machine.execBlockReset s

end Sys2Proof.Machine
end

