-- ==== Sys2Proof/Machine/Serve.lean ====
section
/-!
DEFINITION. Serving one request (`20_memory.md` R35), and the scripts of `30_encoding.md` R55 and R56.
-/
namespace Sys2Proof.Machine

/-- One request served: the instruction it stands for is executed. -/
def serve (r : Request) (s : State) : Host.Outcome State Fault Refusal :=
  match decode r with
  | .ok i => exec i s
  | .error _ => serveUndecoded r s

/-- One step of a block whose parameters are legal: the oldest request is served; with none issued the block stays as
it is, ready for an operation (R140, R144; log 14). -/
def serveNext (s : State) : Host.Outcome State Fault Refusal :=
  match takeRequest s with
  | none => .next s
  | some (r, s') => serve r s'

/-- A script (R55): instructions applied in order (R35), stopping at the first that does not answer a next state. -/
def execAll : List Instr → State → Host.Outcome State Fault Refusal
  | [], s => .next s
  | i :: is, s =>
    match exec i s with
    | .next t => execAll is t
    | .fault e => .fault e
    | .refused r => .refused r

/-- `CHK_SEQ b0 ... bn-1` (R56). -/
def chkSeq (p : List Byte) : List Instr := .chkClear :: (p.map .chkByte ++ [.chkRead])

/-- `RX_CHUNK b0 ... bn-1` (R56), as a script of single operations. -/
def chunkScript (p : List Byte) : List Instr := p.map .rxPush ++ [.rxAttempt]

/-- The record an attempt left on top of the outputs is an `Ok`. -/
def State.lastOk (s : State) : Bool :=
  match s.outputs with
  | .attempted v _ :: _ => decide (v.status = .ok)
  | _ => false

/-- `RX_DRAIN` (R56): attempts until one returns a status other than `Ok`, at most `fuel` of them. A host loop, not an
operation of the block. -/
def rxDrain : Nat → State → Host.Outcome State Fault Refusal
  | 0, s => .next s
  | fuel + 1, s =>
    match exec .rxAttempt s with
    | .next t => if t.lastOk then rxDrain fuel t else .next t
    | .fault e => .fault e
    | .refused r => .refused r

end Sys2Proof.Machine
end

