-- ==== Sys2Proof/Machine/Step.lean ====
section
/-!
DEFINITION. `step`: the block serves the environment's oldest request.
-/
namespace Sys2Proof.Machine

/-- One step. The block is not defined for parameters that break R6 (S8; log 2). -/
def step (s : State) : Host.Outcome State Fault Refusal :=
  if s.params.legal then serveNext s else .refused .illegalParameters

/-- `s` with the instruction of an opcode-table word issued as the block's next request (log 13). -/
def State.withFetchWord (s : State) (nbits w : Nat) : State :=
  s.setRequests (tableRequest nbits w :: s.requests)

end Sys2Proof.Machine
end

