-- ==== Sys2Proof/Safety.lean ====
section
/-!
DEFINITION. What the statements call a good state: the invariant of R6, R22 and R72, and the premise R16 asks of every
claim about reception.
-/
namespace Sys2Proof.Machine

/-- The bytes an output record says went to the byte sink (R67). -/
def Output.sinkBytes : Output → List Byte
  | .encoded _ frame => frame
  | .nothing => []
  | .chkValue _ => []
  | .pushed _ => []
  | .attempted _ _ => []

/-- The frame an output record hands out (R79). -/
def Output.handedOut : Output → Option Frame
  | .attempted v _ => v.frame
  | .nothing => none
  | .chkValue _ => none
  | .encoded _ _ => none
  | .pushed _ => none

/-- The output record of an attempt that flushed (R90). -/
def Output.isFlush : Output → Bool
  | .attempted _ flushed => flushed
  | .nothing => false
  | .chkValue _ => false
  | .encoded _ _ => false
  | .pushed _ => false

/-- Every byte the records say went to the sink, in the order of the operations (`outputs` is newest first). -/
def sinkOf (outputs : List Output) : List Byte := outputs.reverse.flatMap Output.sinkBytes

/-- The frames handed out, newest first. -/
def framesOf (outputs : List Output) : List Frame := outputs.filterMap Output.handedOut

/-- The invariant: legal parameters (R6), a buffer within its capacity (R22), and a byte sink that holds the emitted
frames back to back and nothing else (R38, R72). -/
def State.Inv (s : State) : Prop :=
  s.params.legal = true ∧ s.rxBuf.wf s.params.rxCap = true ∧ s.sink = sinkOf s.outputs

/-- R16: "every claim about received frames takes `rx_overrun = 0` as a premise". -/
def State.clean (s : State) : Bool := !s.rxOverrun

/-- The state an attempt with a given verdict leaves, field by field (R79, R89, R90, R91). -/
def State.afterAttempt (s : State) (v : Verdict) : State :=
  if v.status = .ok then
    { s with rxBuf := s.rxBuf.drop v.consumed, outputs := .attempted v false :: s.outputs }
  else if s.params.rxCeiling < s.rxBuf.length then
    { s with rxBuf := [], outputs := .attempted v true :: s.outputs }
  else
    { s with outputs := .attempted v false :: s.outputs }

/-- An attempt in this state completes with this verdict and leaves what the verdict calls for. -/
def AttemptAnswers (s : State) (v : Verdict) : Prop := exec .rxAttempt s = .next (s.afterAttempt v)

/-- The state right after all of a chunk's bytes were pushed and accepted (R25, R78). -/
def State.withPushed (s : State) (bytes : List Byte) : State :=
  { s with rxBuf := s.rxBuf ++ bytes, outputs := List.replicate bytes.length (.pushed true) ++ s.outputs }

/-- A schedule of the receive worker (R98): `some b` pushes a byte, `none` makes an attempt. -/
def receiveScript (schedule : List (Option Byte)) : List Instr :=
  schedule.map fun step =>
    match step with
    | some b => .rxPush b
    | none => .rxAttempt

/-- The bytes a schedule pushes, in order. -/
def scheduledBytes (schedule : List (Option Byte)) : List Byte := schedule.filterMap id

/-- The units of the block (R1, R9); `all` for `RESET`, which acts on the three at once (R35). -/
inductive HwUnit where
  | checksum
  | encoder
  | reassembler
  | all
  deriving DecidableEq, Repr

/-- The unit an instruction belongs to (R53; a frame on the wire is the reassembler's, R100). -/
def unitOf : Instr → HwUnit
  | .reset _ => .reassembler
  | .requestVersion _ => .reassembler
  | .getSetting _ => .reassembler
  | .updateSetting _ => .reassembler
  | .ping _ => .reassembler
  | .setSerialNumber _ => .reassembler
  | .syncTime _ => .reassembler
  | .getRealTime _ => .reassembler
  | .resetDefault _ => .reassembler
  | .changeVolume _ => .reassembler
  | .pushColor _ => .reassembler
  | .mixColor _ => .reassembler
  | .controlIo _ => .reassembler
  | .calibration _ => .reassembler
  | .doorControl _ => .reassembler
  | .setExpireUsageTime _ => .reassembler
  | .getExpireUsageTime _ => .reassembler
  | .pushColorWithDirection _ => .reassembler
  | .deviceError _ => .reassembler
  | .inputStatus _ => .reassembler
  | .machineStatus _ => .reassembler
  | .pipelineStatus _ => .reassembler
  | .chkClear => .checksum
  | .chkByte _ => .checksum
  | .chkRead => .checksum
  | .enc _ _ => .encoder
  | .rxPush _ => .reassembler
  | .rxAttempt => .reassembler
  | .blockReset => .all

/-- Whether an instruction belongs to the operation layer (R2): it is asked for on the command port (R53). -/
def isOperation (i : Instr) : Bool :=
  match encode i with
  | .port _ => true
  | .chunk _ => false

end Sys2Proof.Machine
end

