-- ==== Sys2Proof/Certificates/Slice0/Obligations.lean ====
section
/-!
DEFINITION. The statements for the provers. Each docstring names the rule or section of `spec/` it formalises.
-/
open Sys2Proof Sys2Proof.Machine

/-- 30_encoding.md section 1, 30_encoding.md section 6. Decoding the encoding of any well-formed instruction gives it
back. The model's own choices in it: log 5. -/
def Obligations.DecodeOfEncodeIsTheInstruction : Prop :=
  ∀ i : Instr, i.wellFormed = true → decode (encode i) = .ok i

/-- 30_encoding.md section 1, 30_encoding.md section 4. A chunk that decodes is exactly the encoding of a well-formed
frame. -/
def Obligations.DecodedChunkIsItsOwnEncoding : Prop :=
  ∀ (bytes : List Byte) (i : Instr), decode (.chunk bytes) = .ok i → i.wellFormed = true ∧ encode i = .chunk bytes

/-- R47. KNOWN is the 22 codes of R47, with their names and classes. -/
def Obligations.KnownSetNamesAndClasses : Prop :=
  (∀ v : Byte, isKnown v = true ↔
      v.toNat ∈ [0x01, 0x02, 0x03, 0x04, 0x05, 0x06, 0x07, 0x08, 0x09, 0x10, 0x11,
        0x12, 0x13, 0x14, 0x15, 0x16, 0x17, 0x19, 0x30, 0x31, 0x32, 0x33]) ∧
  (∀ v : Byte, isKnown v = true ↔
      (0x01 ≤ v.toNat ∧ v.toNat ≤ 0x09) ∨ (0x10 ≤ v.toNat ∧ v.toNat ≤ 0x17) ∨ v.toNat = 0x19 ∨
        (0x30 ≤ v.toNat ∧ v.toNat ≤ 0x33)) ∧
  (∀ f : FrameBody,
    frameKind 0x01#8 f = some (.reset f) ∧
    frameKind 0x02#8 f = some (.requestVersion f) ∧
    frameKind 0x03#8 f = some (.getSetting f) ∧
    frameKind 0x04#8 f = some (.updateSetting f) ∧
    frameKind 0x05#8 f = some (.ping f) ∧
    frameKind 0x06#8 f = some (.setSerialNumber f) ∧
    frameKind 0x07#8 f = some (.syncTime f) ∧
    frameKind 0x08#8 f = some (.getRealTime f) ∧
    frameKind 0x09#8 f = some (.resetDefault f) ∧
    frameKind 0x10#8 f = some (.changeVolume f) ∧
    frameKind 0x11#8 f = some (.pushColor f) ∧
    frameKind 0x12#8 f = some (.mixColor f) ∧
    frameKind 0x13#8 f = some (.controlIo f) ∧
    frameKind 0x14#8 f = some (.calibration f) ∧
    frameKind 0x15#8 f = some (.doorControl f) ∧
    frameKind 0x16#8 f = some (.setExpireUsageTime f) ∧
    frameKind 0x17#8 f = some (.getExpireUsageTime f) ∧
    frameKind 0x19#8 f = some (.pushColorWithDirection f) ∧
    frameKind 0x30#8 f = some (.deviceError f) ∧
    frameKind 0x31#8 f = some (.inputStatus f) ∧
    frameKind 0x32#8 f = some (.machineStatus f) ∧
    frameKind 0x33#8 f = some (.pipelineStatus f)) ∧
  (∀ (v : Byte) (f : FrameBody), isKnown v = false → frameKind v f = none ∧ commandClass v = none) ∧
  (∀ v : Byte, commandClass v = some .generic ↔ 0x01 ≤ v.toNat ∧ v.toNat ≤ 0x09) ∧
  (∀ v : Byte, commandClass v = some .function ↔ (0x10 ≤ v.toNat ∧ v.toNat ≤ 0x17) ∨ v.toNat = 0x19) ∧
  (∀ v : Byte, commandClass v = some .statusPush ↔ 0x30 ≤ v.toNat ∧ v.toNat ≤ 0x33)

/-- 30_encoding.md section 5, 92_eei_decisions.md D3. A header word with a recognised code and any length selects that
code's row. Rests on the spec's own decision D3. The model's own choices in it: log 13. -/
def Obligations.HeaderWordSelectsItsRow : Prop :=
  ∀ k len : Byte, isKnown k = true →
    decodeTableWord 24 (0x780000 + k.toNat * 256 + len.toNat) =
      frameKind k ⟨List.replicate len.toNat 0#8, 0#8, 0#8, 0#8⟩

/-- 30_encoding.md section 6, 92_eei_decisions.md D3. The operation numbers 0 to 5 and 7 decode to the seven
operations, 6 to none. Rests on the spec's own decision D3. The model's own choices in it: log 5. -/
def Obligations.OperationNumbersDecode : Prop :=
  ∀ (b : Byte) (p : List Byte),
    decode (.port ⟨0, b, p⟩) = .ok .chkClear ∧ decode (.port ⟨1, b, p⟩) = .ok (.chkByte b) ∧
    decode (.port ⟨2, b, p⟩) = .ok .chkRead ∧ decode (.port ⟨3, b, p⟩) = .ok (.enc b p) ∧
    decode (.port ⟨4, b, p⟩) = .ok (.rxPush b) ∧ decode (.port ⟨5, b, p⟩) = .ok .rxAttempt ∧
    decode (.port ⟨7, b, p⟩) = .ok .blockReset ∧ decode (.port ⟨6, b, p⟩) = .error .reservedOp

/-- 30_encoding.md section 1, 43_command_catalog.md sections 2 to 4. Each of the 22 frame kinds encodes to start, its
code, length, payload, checksum pair, stop. -/
def Obligations.EncodingOfEachFrameKind : Prop :=
  ∀ f : FrameBody,
    encode (.reset f) =
      .chunk ([0x78#8, 0x01#8, BitVec.ofNat 8 f.payload.length] ++ f.payload ++ [f.checksumHi, f.checksumLo, f.stop]) ∧
    encode (.requestVersion f) =
      .chunk ([0x78#8, 0x02#8, BitVec.ofNat 8 f.payload.length] ++ f.payload ++ [f.checksumHi, f.checksumLo, f.stop]) ∧
    encode (.getSetting f) =
      .chunk ([0x78#8, 0x03#8, BitVec.ofNat 8 f.payload.length] ++ f.payload ++ [f.checksumHi, f.checksumLo, f.stop]) ∧
    encode (.updateSetting f) =
      .chunk ([0x78#8, 0x04#8, BitVec.ofNat 8 f.payload.length] ++ f.payload ++ [f.checksumHi, f.checksumLo, f.stop]) ∧
    encode (.ping f) =
      .chunk ([0x78#8, 0x05#8, BitVec.ofNat 8 f.payload.length] ++ f.payload ++ [f.checksumHi, f.checksumLo, f.stop]) ∧
    encode (.setSerialNumber f) =
      .chunk ([0x78#8, 0x06#8, BitVec.ofNat 8 f.payload.length] ++ f.payload ++ [f.checksumHi, f.checksumLo, f.stop]) ∧
    encode (.syncTime f) =
      .chunk ([0x78#8, 0x07#8, BitVec.ofNat 8 f.payload.length] ++ f.payload ++ [f.checksumHi, f.checksumLo, f.stop]) ∧
    encode (.getRealTime f) =
      .chunk ([0x78#8, 0x08#8, BitVec.ofNat 8 f.payload.length] ++ f.payload ++ [f.checksumHi, f.checksumLo, f.stop]) ∧
    encode (.resetDefault f) =
      .chunk ([0x78#8, 0x09#8, BitVec.ofNat 8 f.payload.length] ++ f.payload ++ [f.checksumHi, f.checksumLo, f.stop]) ∧
    encode (.changeVolume f) =
      .chunk ([0x78#8, 0x10#8, BitVec.ofNat 8 f.payload.length] ++ f.payload ++ [f.checksumHi, f.checksumLo, f.stop]) ∧
    encode (.pushColor f) =
      .chunk ([0x78#8, 0x11#8, BitVec.ofNat 8 f.payload.length] ++ f.payload ++ [f.checksumHi, f.checksumLo, f.stop]) ∧
    encode (.mixColor f) =
      .chunk ([0x78#8, 0x12#8, BitVec.ofNat 8 f.payload.length] ++ f.payload ++ [f.checksumHi, f.checksumLo, f.stop]) ∧
    encode (.controlIo f) =
      .chunk ([0x78#8, 0x13#8, BitVec.ofNat 8 f.payload.length] ++ f.payload ++ [f.checksumHi, f.checksumLo, f.stop]) ∧
    encode (.calibration f) =
      .chunk ([0x78#8, 0x14#8, BitVec.ofNat 8 f.payload.length] ++ f.payload ++ [f.checksumHi, f.checksumLo, f.stop]) ∧
    encode (.doorControl f) =
      .chunk ([0x78#8, 0x15#8, BitVec.ofNat 8 f.payload.length] ++ f.payload ++ [f.checksumHi, f.checksumLo, f.stop]) ∧
    encode (.setExpireUsageTime f) =
      .chunk ([0x78#8, 0x16#8, BitVec.ofNat 8 f.payload.length] ++ f.payload ++ [f.checksumHi, f.checksumLo, f.stop]) ∧
    encode (.getExpireUsageTime f) =
      .chunk ([0x78#8, 0x17#8, BitVec.ofNat 8 f.payload.length] ++ f.payload ++ [f.checksumHi, f.checksumLo, f.stop]) ∧
    encode (.pushColorWithDirection f) =
      .chunk ([0x78#8, 0x19#8, BitVec.ofNat 8 f.payload.length] ++ f.payload ++ [f.checksumHi, f.checksumLo, f.stop]) ∧
    encode (.deviceError f) =
      .chunk ([0x78#8, 0x30#8, BitVec.ofNat 8 f.payload.length] ++ f.payload ++ [f.checksumHi, f.checksumLo, f.stop]) ∧
    encode (.inputStatus f) =
      .chunk ([0x78#8, 0x31#8, BitVec.ofNat 8 f.payload.length] ++ f.payload ++ [f.checksumHi, f.checksumLo, f.stop]) ∧
    encode (.machineStatus f) =
      .chunk ([0x78#8, 0x32#8, BitVec.ofNat 8 f.payload.length] ++ f.payload ++ [f.checksumHi, f.checksumLo, f.stop]) ∧
    encode (.pipelineStatus f) =
      .chunk ([0x78#8, 0x33#8, BitVec.ofNat 8 f.payload.length] ++ f.payload ++ [f.checksumHi, f.checksumLo, f.stop])

/-- 30_encoding.md sections 1 and 6, 95_test_vectors.md section 2, 92_eei_decisions.md D3. Some frames of the test
vectors and three operation words decode to what they stand for. Rests on the spec's own decision D3. The model's own
choices in it: log 13. -/
def Obligations.SampleWordsDecode : Prop :=
  decode (.chunk [0x78#8, 0x05#8, 0x00#8, 0x00#8, 0x00#8, 0x79#8]) = .ok (.ping ⟨[], 0x00#8, 0x00#8, 0x79#8⟩) ∧
  decode (.chunk [0x78#8, 0x11#8, 0x02#8, 0x78#8, 0x79#8, 0x00#8, 0xF1#8, 0x79#8]) =
    .ok (.pushColor ⟨[0x78#8, 0x79#8], 0x00#8, 0xF1#8, 0x79#8⟩) ∧
  decode (.chunk [0x78#8, 0x33#8, 0x05#8, 0x02#8, 0x41#8, 0x20#8, 0x00#8, 0x00#8, 0x00#8, 0x63#8, 0x79#8]) =
    .ok (.pipelineStatus ⟨[0x02#8, 0x41#8, 0x20#8, 0x00#8, 0x00#8], 0x00#8, 0x63#8, 0x79#8⟩) ∧
  decodeTableWord 8 1 = some (.chkByte 0x00#8) ∧ decodeTableWord 8 3 = some (.enc 0x00#8 []) ∧
  decodeTableWord 8 7 = some .blockReset

/-- 30_encoding.md section 6, 92_eei_decisions.md D16. status, reason and enc_err have R54's numbers, and 3 is no
status and no enc_err. Rests on the spec's own decision D16. -/
def Obligations.ResultCodesAreNumbered : Prop :=
  (Status.needMoreData.code = 0 ∧ Status.invalid.code = 1 ∧ Status.ok.code = 2 ∧ ∀ x : Status, x.code ≠ 3) ∧
  (Reason.noReason.code = 0 ∧ Reason.badCommand.code = 1 ∧ Reason.badChecksum.code = 2 ∧ Reason.badStop.code = 3) ∧
  (EncErr.noError.code = 0 ∧ EncErr.encBadCommand.code = 1 ∧ EncErr.encTooLong.code = 2 ∧ ∀ x : EncErr, x.code ≠ 3)

/-- 40_checksum.md section 4, 92_eei_decisions.md D2, 92_eei_decisions.md D4. CHK_CLEAR sets chk_acc to 0 and changes
nothing else. Rests on the spec's own decisions D2, D4. The model's own choices in it: log 7. -/
def Obligations.ChkClearResult : Prop :=
  ∀ s : State, exec .chkClear s = .next { s with chkAcc := 0x0000#16, outputs := .nothing :: s.outputs }

/-- 40_checksum.md section 4, 92_eei_decisions.md D1, 92_eei_decisions.md D2. CHK_BYTE(b) adds b to chk_acc modulo
65536 and changes nothing else. Rests on the spec's own decisions D1, D2. The model's own choices in it: log 7. -/
def Obligations.ChkByteResult : Prop :=
  ∀ (b : Byte) (s : State), ∃ acc : Half, acc.toNat = (s.chkAcc.toNat + b.toNat) % 65536 ∧
    exec (.chkByte b) s = .next { s with chkAcc := acc, outputs := .nothing :: s.outputs }

/-- 40_checksum.md section 4, 92_eei_decisions.md D2. CHK_READ outputs chk_acc and changes nothing; after CHK_CLEAR
and bytes it outputs their checksum. Rests on the spec's own decision D2. The model's own choices in it: log 7, log
12. -/
def Obligations.ChkReadResult : Prop :=
  (∀ s : State, exec .chkRead s = .next { s with outputs := .chkValue s.chkAcc :: s.outputs }) ∧
  (∃ t, exec .chkRead State.reset = .next t ∧ t.outputs = [.chkValue 0x0000#16]) ∧
  (∀ (p : List Byte) (s : State), ∃ t, execAll (chkSeq p) s = .next t ∧
    t.outputs = .chkValue (checksum p) :: (List.replicate (p.length + 1) .nothing ++ s.outputs))

/-- 40_checksum.md section 2, 92_eei_decisions.md D1. checksum(p) is the fold of CHK_STEP from 0 and the byte sum
modulo 65536. Rests on the spec's own decision D1. -/
def Obligations.ChecksumIsTheByteSum : Prop :=
  (∀ (a : Half) (b : Byte), (chkStep a b).toNat = (a.toNat + b.toNat) % 65536) ∧
  (∀ p : List Byte, checksum p = p.foldl chkStep 0x0000#16) ∧
  (∀ p : List Byte, (checksum p).toNat = (p.map BitVec.toNat).sum % 65536)

/-- 40_checksum.md section 2. checksum(p ++ q) continues checksum(p) over q. The spec marks the rule as derived by
itself ("[derived: ...]"). -/
def Obligations.ChecksumIncrementalIsOnePass : Prop :=
  (∀ p q : List Byte, checksum (p ++ q) = q.foldl chkStep (checksum p)) ∧
  (∀ (f : Half → Byte → Half) (p q : List Byte),
    (p ++ q).foldl f 0x0000#16 = q.foldl f (p.foldl f 0x0000#16))

/-- 40_checksum.md sections 2 and 4, 92_eei_decisions.md D2. The checksum of no bytes is 0x0000, as a function and
through the operations. Rests on the spec's own decision D2. The model's own choices in it: log 7. -/
def Obligations.EmptyPayloadChecksumIsZero : Prop :=
  checksum [] = 0x0000#16 ∧
  ∀ s : State, ∃ t, execAll (chkSeq []) s = .next t ∧ t.outputs = .chkValue 0x0000#16 :: .nothing :: s.outputs

/-- 40_checksum.md section 3, 92_eei_decisions.md D1. Within a frame the sum never wraps; longer sums wrap; order and
zero bytes do not matter. Rests on the spec's own decision D1. The spec marks the rule as derived by itself
("[derived: ...]"). -/
def Obligations.ChecksumArithmeticLaws : Prop :=
  (∀ p : List Byte, p.length ≤ 255 →
    (checksum p).toNat = (p.map BitVec.toNat).sum ∧ (checksum p).toNat ≤ 0xFE01 ∧ (hiByte (checksum p)).toNat ≤ 0xFE) ∧
  checksum (List.replicate 257 0xFF#8) = 0xFFFF#16 ∧ checksum (List.replicate 258 0xFF#8) = 0x00FE#16 ∧
  (∀ p q : List Byte, p.Perm q → checksum p = checksum q) ∧
  (∀ p q : List Byte, checksum (p ++ 0x00#8 :: q) = checksum (p ++ q))

/-- 30_encoding.md section 2, 20_memory.md section 2. A received pair equals a checksum exactly if the high byte is
first and the low byte second. -/
def Obligations.ChecksumPairIsBigEndian : Prop :=
  ∀ c : Half, (hiByte c).toNat = c.toNat / 256 ∧ (loByte c).toNat = c.toNat % 256 ∧
    ∀ hi lo : Byte, hi.toNat * 256 + lo.toNat = c.toNat ↔ hi = hiByte c ∧ lo = loByte c

/-- 41_frame_encoder.md section 2, 92_eei_decisions.md D5, 92_eei_decisions.md D6. ENC emits the frame, or refuses
with EncBadCommand or EncTooLong and sends nothing. Rests on the spec's own decisions D5, D6. -/
def Obligations.EncResult : Prop :=
  ∀ (cmd : Byte) (p : List Byte) (s : State),
    exec (.enc cmd p) s =
      if isKnown cmd = false then .next { s with outputs := .encoded .encBadCommand [] :: s.outputs }
      else if 255 < p.length then .next { s with outputs := .encoded .encTooLong [] :: s.outputs }
      else .next { s with
        outputs := .encoded .noError ([0x78#8, cmd, BitVec.ofNat 8 p.length] ++ p ++
          [hiByte (checksum p), loByte (checksum p), 0x79#8]) :: s.outputs
        sink := s.sink ++ ([0x78#8, cmd, BitVec.ofNat 8 p.length] ++ p ++
          [hiByte (checksum p), loByte (checksum p), 0x79#8]) }

/-- 41_frame_encoder.md sections 2 and 4. Every frame ENC emits has R76's form, and its length byte is len(p). The
spec marks the rule as derived by itself ("[derived: ...]"). -/
def Obligations.EmittedFrameIsWellFormed : Prop :=
  ∀ (cmd : Byte) (p : List Byte) (s t : State) (F : List Byte), exec (.enc cmd p) s = .next t →
    t.outputs = .encoded .noError F :: s.outputs →
    F[0]? = some 0x78#8 ∧ (∃ k, F[1]? = some k ∧ isKnown k = true) ∧
    ∃ len hi lo : Byte, F[2]? = some len ∧ len.toNat = p.length ∧ F.length = len.toNat + 6 ∧
      F[3 + len.toNat]? = some hi ∧ F[4 + len.toNat]? = some lo ∧
      hi.toNat * 256 + lo.toNat = (checksum ((F.drop 3).take len.toNat)).toNat ∧ F[5 + len.toNat]? = some 0x79#8

/-- R100. ENC and RX_ATTEMPT treat every recognised command alike and never look inside the payload. -/
def Obligations.EveryCommandIsTreatedAlike : Prop :=
  ∀ k : Byte, isKnown k = true →
    (∀ (p : List Byte) (s : State), p.length ≤ 255 → ∃ t, exec (.enc k p) s = .next t ∧
      t.sink = s.sink ++ ([0x78#8, k, BitVec.ofNat 8 p.length] ++ p ++
        [hiByte (checksum p), loByte (checksum p), 0x79#8])) ∧
    (∀ (s : State) (junk payload rest : List Byte) (len : Byte), 0x78#8 ∉ junk → payload.length = len.toNat →
      s.rxBuf = junk ++ 0x78#8 :: k :: len ::
        (payload ++ hiByte (checksum payload) :: loByte (checksum payload) :: 0x79#8 :: rest) →
      ∃ t v, exec .rxAttempt s = .next t ∧ t.outputs = .attempted v false :: s.outputs ∧ v.status = .ok ∧
        v.frame = some ⟨junk.length, k, len, payload⟩) ∧
    (∀ (k' : Byte) (junk rest : List Byte), isKnown k' = true → 0x78#8 ∉ junk →
      ∃ v v', tryExtract (junk ++ 0x78#8 :: k :: rest) = .ok v ∧ tryExtract (junk ++ 0x78#8 :: k' :: rest) = .ok v' ∧
        v' = { v with frame := v.frame.map fun fr => { fr with commandId := k' } })

/-- 42_stream_reassembler.md section 2, 60_exceptions.md section 1, 92_eei_decisions.md D10. RX_PUSH stores the byte
if there is room, else drops it and sets rx_overrun. Rests on the spec's own decision D10. -/
def Obligations.RxPushResult : Prop :=
  ∀ (b : Byte) (s : State),
    exec (.rxPush b) s =
      if s.rxBuf.length < s.params.rxCap then
        .next { s with rxBuf := s.rxBuf ++ [b], outputs := .pushed true :: s.outputs }
      else .next { s with rxOverrun := true, outputs := .pushed false :: s.outputs }

/-- R25. An accepted RX_PUSH writes the byte at index rx_fill, adds 1 to rx_fill, leaves every other byte. -/
def Obligations.RxPushWritesOneCell : Prop :=
  ∀ (b : Byte) (s : State), s.rxFill < s.params.rxCap → ∃ t, exec (.rxPush b) s = .next t ∧
    t.rxFill = s.rxFill + 1 ∧ t.rxBuf.read s.rxFill = .ok b ∧
    ∀ a, a ≠ s.rxFill → t.rxBuf.read a = s.rxBuf.read a

/-- 20_memory.md section 6, 42_stream_reassembler.md sections 2, 3 and 5, 92_eei_decisions.md D10, 92_eei_decisions.md
D14. After pushes, the buffer is the old bytes and the accepted new ones, and the attempt judges just that. Rests on
the spec's own decisions D10, D14. -/
def Obligations.AttemptSeesEveryAcceptedByte : Prop :=
  ∀ (p : List Byte) (s : State), ∃ t v, execAll (p.map .rxPush) s = .next t ∧
    t.rxBuf = s.rxBuf ++ p.take (s.params.rxCap - s.rxBuf.length) ∧
    tryExtract t.rxBuf = .ok v ∧ execAll (p.map .rxPush ++ [.rxAttempt]) s = .next (t.afterAttempt v)

/-- 20_memory.md section 1, 92_eei_decisions.md D26. MemRead is defined exactly below rx_fill, and every attempt stays
within it and completes. Rests on the spec's own decision D26. -/
def Obligations.AttemptReadsOnlyWhatExists : Prop :=
  (∀ (m : Memory) (i : Nat), (∃ b, m.read i = .ok b) ↔ i < m.length) ∧
  (∀ s : State, ∃ v, tryExtract s.rxBuf = .ok v ∧ AttemptAnswers s v)

/-- R81. The start index is the least index holding 0x78; without one the attempt answers NeedMoreData. -/
def Obligations.AttemptScansForTheFirstStart : Prop :=
  (∀ (m : Memory) (i : Nat), findStart m = some i ↔ m[i]? = some 0x78#8 ∧ ∀ j < i, m[j]? ≠ some 0x78#8) ∧
  (∀ m : Memory, findStart m = none ↔ 0x78#8 ∉ m) ∧
  (∀ s : State, 0x78#8 ∉ s.rxBuf → AttemptAnswers s ⟨.needMoreData, .noReason, 0, none⟩)

/-- 42_stream_reassembler.md section 4, 92_eei_decisions.md D11. With the start byte last in the buffer, the attempt
answers NeedMoreData. Rests on the spec's own decision D11. -/
def Obligations.AttemptWaitsForTheCommand : Prop :=
  ∀ (s : State) (junk : List Byte), 0x78#8 ∉ junk → s.rxBuf = junk ++ [0x78#8] →
    AttemptAnswers s ⟨.needMoreData, .noReason, 0, none⟩

/-- R83, R126. An unrecognised byte behind the first start byte gives Invalid/BadCommand, whatever follows. -/
def Obligations.AttemptRejectsUnknownCommand : Prop :=
  ∀ (s : State) (junk rest : List Byte) (cmd : Byte), 0x78#8 ∉ junk → isKnown cmd = false →
    s.rxBuf = junk ++ 0x78#8 :: cmd :: rest → AttemptAnswers s ⟨.invalid, .badCommand, 0, none⟩

/-- 42_stream_reassembler.md section 4, 92_eei_decisions.md D11. With a recognised command last in the buffer, the
attempt answers NeedMoreData. Rests on the spec's own decision D11. -/
def Obligations.AttemptWaitsForTheLength : Prop :=
  ∀ (s : State) (junk : List Byte) (cmd : Byte), 0x78#8 ∉ junk → isKnown cmd = true →
    s.rxBuf = junk ++ [0x78#8, cmd] → AttemptAnswers s ⟨.needMoreData, .noReason, 0, none⟩

/-- 42_stream_reassembler.md section 4, 90_conflicts.md C1, 92_eei_decisions.md D12, 92_eei_decisions.md D18. With
fewer than s + L + 6 bytes the attempt answers NeedMoreData, for every L. Rests on the spec's own decisions D12, D18.
-/
def Obligations.AttemptWaitsForTheWholeFrame : Prop :=
  ∀ (s : State) (junk tail : List Byte) (cmd len : Byte), 0x78#8 ∉ junk → isKnown cmd = true →
    s.rxBuf = junk ++ 0x78#8 :: cmd :: len :: tail → s.rxBuf.length < junk.length + len.toNat + 6 →
    AttemptAnswers s ⟨.needMoreData, .noReason, 0, none⟩

/-- R86, R127. A whole candidate whose checksum pair differs gives Invalid/BadChecksum, whatever its stop byte. -/
def Obligations.AttemptRejectsBadChecksum : Prop :=
  ∀ (s : State) (junk payload rest : List Byte) (cmd len hi lo stop : Byte), 0x78#8 ∉ junk → isKnown cmd = true →
    payload.length = len.toNat → s.rxBuf = junk ++ 0x78#8 :: cmd :: len :: (payload ++ hi :: lo :: stop :: rest) →
    hi ≠ hiByte (checksum payload) ∨ lo ≠ loByte (checksum payload) →
    AttemptAnswers s ⟨.invalid, .badChecksum, 0, none⟩

/-- R87, R128. A whole candidate with the right checksum and a wrong stop byte gives Invalid/BadStop. -/
def Obligations.AttemptRejectsBadStop : Prop :=
  ∀ (s : State) (junk payload rest : List Byte) (cmd len stop : Byte), 0x78#8 ∉ junk → isKnown cmd = true →
    payload.length = len.toNat →
    s.rxBuf = junk ++ 0x78#8 :: cmd :: len ::
      (payload ++ hiByte (checksum payload) :: loByte (checksum payload) :: stop :: rest) →
    stop ≠ 0x79#8 → AttemptAnswers s ⟨.invalid, .badStop, 0, none⟩

/-- 42_stream_reassembler.md section 4, 90_conflicts.md C6, 92_eei_decisions.md D13. A whole good frame gives Ok with
consumed = s + L + 6, and the buffer keeps only what is behind it. Rests on the spec's own decision D13. -/
def Obligations.AttemptHandsOutAGoodFrame : Prop :=
  ∀ (s : State) (junk payload rest : List Byte) (cmd len : Byte), 0x78#8 ∉ junk → isKnown cmd = true →
    payload.length = len.toNat →
    s.rxBuf = junk ++ 0x78#8 :: cmd :: len ::
      (payload ++ hiByte (checksum payload) :: loByte (checksum payload) :: 0x79#8 :: rest) →
    exec .rxAttempt s = .next { s with
      rxBuf := rest
      outputs := .attempted ⟨.ok, .noReason, junk.length + len.toNat + 6,
        some ⟨junk.length, cmd, len, payload⟩⟩ false :: s.outputs }

/-- 42_stream_reassembler.md section 4, 30_encoding.md section 1, 92_eei_decisions.md D13. Whatever an attempt hands
out is a well-formed frame that stood at the front of the buffer. Rests on the spec's own decision D13. -/
def Obligations.HandedOutFrameStoodInTheBuffer : Prop :=
  ∀ (s t : State) (v : Verdict) (flushed : Bool) (fr : Frame), exec .rxAttempt s = .next t →
    t.outputs = .attempted v flushed :: s.outputs → v.frame = some fr →
    v.status = .ok ∧ v.reason = .noReason ∧ flushed = false ∧ isKnown fr.commandId = true ∧
    fr.payload.length = fr.length.toNat ∧ v.consumed = fr.start + fr.length.toNat + 6 ∧
    ∃ junk, junk.length = fr.start ∧ 0x78#8 ∉ junk ∧
      s.rxBuf = junk ++ encFrame fr.commandId fr.payload ++ t.rxBuf

/-- 42_stream_reassembler.md section 5, 90_conflicts.md C9, 92_eei_decisions.md D14. A non-Ok attempt flushes exactly
if rx_fill > RX_CEILING, reporting the status found before. Rests on the spec's own decision D14. -/
def Obligations.FlushExactlyOverTheCeiling : Prop :=
  ∀ (s : State) (v : Verdict), tryExtract s.rxBuf = .ok v → ∃ t, exec .rxAttempt s = .next t ∧
    (v.status = .ok → t.outputs = .attempted v false :: s.outputs) ∧
    (v.status ≠ .ok → s.params.rxCeiling < s.rxFill → t.rxBuf = [] ∧ t.outputs = .attempted v true :: s.outputs) ∧
    (v.status ≠ .ok → s.rxFill ≤ s.params.rxCeiling →
      t.rxBuf = s.rxBuf ∧ t.outputs = .attempted v false :: s.outputs) ∧
    (v.status ≠ .ok → t.rxFill ≤ s.params.rxCeiling)

/-- R28. An attempt that is not Ok and does not flush leaves the state, and repeating it gives the same record. -/
def Obligations.FruitlessAttemptIsIdempotent : Prop :=
  ∀ (s t : State) (v : Verdict), exec .rxAttempt s = .next t → t.outputs = .attempted v false :: s.outputs →
    v.status ≠ .ok →
    t = { s with outputs := t.outputs } ∧
    exec .rxAttempt t = .next { t with outputs := .attempted v false :: t.outputs }

/-- 42_stream_reassembler.md section 6. An Invalid or Ok verdict stays the same whatever bytes are appended. The spec
marks the rule as derived by itself ("[derived: ...]"). -/
def Obligations.VerdictIsStableUnderExtension : Prop :=
  ∀ (B more : List Byte) (v : Verdict), tryExtract B = .ok v → v.status ≠ .needMoreData →
    tryExtract (B ++ more) = .ok v

/-- 42_stream_reassembler.md section 6, 92_eei_decisions.md D11, 92_eei_decisions.md D12, 92_eei_decisions.md D13.
Behind junk, every proper prefix of an emitted frame is NeedMoreData, the whole frame is Ok. Rests on the spec's own
decisions D11, D12, D13. The spec marks the rule as derived by itself ("[derived: ...]"). -/
def Obligations.EveryProperPrefixNeedsMore : Prop :=
  ∀ (cmd : Byte) (p junk more : List Byte), isKnown cmd = true → p.length ≤ 255 → 0x78#8 ∉ junk →
    (∀ k < p.length + 6,
      tryExtract (junk ++ (encFrame cmd p).take k) = .ok ⟨.needMoreData, .noReason, 0, none⟩) ∧
    tryExtract (junk ++ encFrame cmd p ++ more) = .ok ⟨.ok, .noReason, junk.length + p.length + 6,
      some ⟨junk.length, cmd, BitVec.ofNat 8 p.length, p⟩⟩

/-- 41_frame_encoder.md section 4, 42_stream_reassembler.md section 6, 92_eei_decisions.md D11, 92_eei_decisions.md
D12, 92_eei_decisions.md D13, 92_eei_decisions.md D14. An emitted frame pushed under any schedule of attempts is
handed out exactly once, at the end. Rests on the spec's own decisions D11, D12, D13, D14. The spec marks the rule as
derived by itself ("[derived: ...]"). -/
def Obligations.LoopBackUnderEverySchedule : Prop :=
  ∀ (cmd : Byte) (p : List Byte) (s : State) (schedule : List (Option Byte)), isKnown cmd = true → p.length ≤ 255 →
    0x78#8 ∉ s.rxBuf → s.rxBuf.length + p.length + 6 ≤ s.params.rxCap → scheduledBytes schedule = encFrame cmd p →
    ∃ t new, execAll (receiveScript schedule ++ [.rxAttempt]) s = .next t ∧ t.outputs = new ++ s.outputs ∧
      (s.rxBuf.length + p.length + 5 ≤ s.params.rxCeiling → ∀ o ∈ new, o.isFlush = false) ∧
      ((∀ o ∈ new, o.isFlush = false) →
        t.rxBuf = [] ∧ t.rxOverrun = s.rxOverrun ∧
        ∃ late early, new = late ++ .attempted ⟨.ok, .noReason, s.rxBuf.length + p.length + 6,
            some ⟨s.rxBuf.length, cmd, BitVec.ofNat 8 p.length, p⟩⟩ false :: early ∧
          (∀ o ∈ late, o = .attempted ⟨.needMoreData, .noReason, 0, none⟩ false) ∧
          (∀ o ∈ early, o = .pushed true ∨ o = .attempted ⟨.needMoreData, .noReason, 0, none⟩ false))

/-- R91. Once a buffer is Invalid, every attempt reports the same and hands out nothing until one flushes. -/
def Obligations.InvalidStallsUntilAFlush : Prop :=
  ∀ (s : State) (v : Verdict) (schedule : List (Option Byte)), tryExtract s.rxBuf = .ok v → v.status = .invalid →
    ∃ t new, execAll (receiveScript schedule) s = .next t ∧ t.outputs = new ++ s.outputs ∧
      ((∀ o ∈ new, o.isFlush = false) →
        (∀ o ∈ new, o = .attempted v false ∨ o = .pushed true ∨ o = .pushed false) ∧ framesOf new = [] ∧
        ∃ more, t.rxBuf = s.rxBuf ++ more)

/-- 42_stream_reassembler.md section 8. Two frames in the buffer come out in order, one per attempt, then
NeedMoreData. The spec marks the rule as derived by itself ("[derived: ...]"). -/
def Obligations.TwoFramesComeOutOneByOne : Prop :=
  ∀ (c₁ c₂ : Byte) (p₁ p₂ : List Byte) (s : State), isKnown c₁ = true → isKnown c₂ = true → p₁.length ≤ 255 →
    p₂.length ≤ 255 → s.rxBuf = encFrame c₁ p₁ ++ encFrame c₂ p₂ →
    execAll [.rxAttempt, .rxAttempt, .rxAttempt] s = .next { s with
      rxBuf := []
      outputs := .attempted ⟨.needMoreData, .noReason, 0, none⟩ false ::
        .attempted ⟨.ok, .noReason, p₂.length + 6, some ⟨0, c₂, BitVec.ofNat 8 p₂.length, p₂⟩⟩ false ::
        .attempted ⟨.ok, .noReason, p₁.length + 6, some ⟨0, c₁, BitVec.ofNat 8 p₁.length, p₁⟩⟩ false :: s.outputs }

/-- 30_encoding.md section 7, 92_eei_decisions.md D15. RX_DRAIN ends: every Ok attempt removes at least 6 bytes. Rests
on the spec's own decision D15. The spec marks the rule as derived by itself ("[derived: ...]"). -/
def Obligations.DrainTerminates : Prop :=
  (∀ s t : State, exec .rxAttempt s = .next t → t.lastOk = true → t.rxFill + 6 ≤ s.rxFill) ∧
  (∀ s : State, ∃ t, rxDrain (s.rxFill / 6 + 1) s = .next t ∧ t.lastOk = false)

/-- 43_command_catalog.md sections 1 and 2, 42_stream_reassembler.md sections 2 to 4, 90_conflicts.md C6,
92_eei_decisions.md D13. Each good generic frame arriving is received whole and handed out under its own code. Rests
on the spec's own decision D13. The model's own choices in it: log 6. -/
def Obligations.GenericFramesAreHandedOut : Prop :=
  ∀ (f : FrameBody) (s : State), f.payload.length ≤ 255 → f.checksumHi = hiByte (checksum f.payload) →
    f.checksumLo = loByte (checksum f.payload) → f.stop = 0x79#8 → 0x78#8 ∉ s.rxBuf →
    s.rxBuf.length + f.payload.length + 6 ≤ s.params.rxCap →
    exec (.reset f) s = .next { s with
      rxBuf := []
      outputs := .attempted ⟨.ok, .noReason, s.rxBuf.length + f.payload.length + 6,
        some ⟨s.rxBuf.length, 0x01#8, BitVec.ofNat 8 f.payload.length, f.payload⟩⟩ false ::
        (List.replicate (f.payload.length + 6) (.pushed true) ++ s.outputs) } ∧
    exec (.requestVersion f) s = .next { s with
      rxBuf := []
      outputs := .attempted ⟨.ok, .noReason, s.rxBuf.length + f.payload.length + 6,
        some ⟨s.rxBuf.length, 0x02#8, BitVec.ofNat 8 f.payload.length, f.payload⟩⟩ false ::
        (List.replicate (f.payload.length + 6) (.pushed true) ++ s.outputs) } ∧
    exec (.getSetting f) s = .next { s with
      rxBuf := []
      outputs := .attempted ⟨.ok, .noReason, s.rxBuf.length + f.payload.length + 6,
        some ⟨s.rxBuf.length, 0x03#8, BitVec.ofNat 8 f.payload.length, f.payload⟩⟩ false ::
        (List.replicate (f.payload.length + 6) (.pushed true) ++ s.outputs) } ∧
    exec (.updateSetting f) s = .next { s with
      rxBuf := []
      outputs := .attempted ⟨.ok, .noReason, s.rxBuf.length + f.payload.length + 6,
        some ⟨s.rxBuf.length, 0x04#8, BitVec.ofNat 8 f.payload.length, f.payload⟩⟩ false ::
        (List.replicate (f.payload.length + 6) (.pushed true) ++ s.outputs) } ∧
    exec (.ping f) s = .next { s with
      rxBuf := []
      outputs := .attempted ⟨.ok, .noReason, s.rxBuf.length + f.payload.length + 6,
        some ⟨s.rxBuf.length, 0x05#8, BitVec.ofNat 8 f.payload.length, f.payload⟩⟩ false ::
        (List.replicate (f.payload.length + 6) (.pushed true) ++ s.outputs) } ∧
    exec (.setSerialNumber f) s = .next { s with
      rxBuf := []
      outputs := .attempted ⟨.ok, .noReason, s.rxBuf.length + f.payload.length + 6,
        some ⟨s.rxBuf.length, 0x06#8, BitVec.ofNat 8 f.payload.length, f.payload⟩⟩ false ::
        (List.replicate (f.payload.length + 6) (.pushed true) ++ s.outputs) } ∧
    exec (.syncTime f) s = .next { s with
      rxBuf := []
      outputs := .attempted ⟨.ok, .noReason, s.rxBuf.length + f.payload.length + 6,
        some ⟨s.rxBuf.length, 0x07#8, BitVec.ofNat 8 f.payload.length, f.payload⟩⟩ false ::
        (List.replicate (f.payload.length + 6) (.pushed true) ++ s.outputs) } ∧
    exec (.getRealTime f) s = .next { s with
      rxBuf := []
      outputs := .attempted ⟨.ok, .noReason, s.rxBuf.length + f.payload.length + 6,
        some ⟨s.rxBuf.length, 0x08#8, BitVec.ofNat 8 f.payload.length, f.payload⟩⟩ false ::
        (List.replicate (f.payload.length + 6) (.pushed true) ++ s.outputs) } ∧
    exec (.resetDefault f) s = .next { s with
      rxBuf := []
      outputs := .attempted ⟨.ok, .noReason, s.rxBuf.length + f.payload.length + 6,
        some ⟨s.rxBuf.length, 0x09#8, BitVec.ofNat 8 f.payload.length, f.payload⟩⟩ false ::
        (List.replicate (f.payload.length + 6) (.pushed true) ++ s.outputs) }

/-- 43_command_catalog.md sections 1 and 3, 42_stream_reassembler.md sections 2 to 4, 90_conflicts.md C6,
92_eei_decisions.md D13. Each good function frame arriving is received whole and handed out under its own code. Rests
on the spec's own decision D13. The model's own choices in it: log 6. -/
def Obligations.FunctionFramesAreHandedOut : Prop :=
  ∀ (f : FrameBody) (s : State), f.payload.length ≤ 255 → f.checksumHi = hiByte (checksum f.payload) →
    f.checksumLo = loByte (checksum f.payload) → f.stop = 0x79#8 → 0x78#8 ∉ s.rxBuf →
    s.rxBuf.length + f.payload.length + 6 ≤ s.params.rxCap →
    exec (.changeVolume f) s = .next { s with
      rxBuf := []
      outputs := .attempted ⟨.ok, .noReason, s.rxBuf.length + f.payload.length + 6,
        some ⟨s.rxBuf.length, 0x10#8, BitVec.ofNat 8 f.payload.length, f.payload⟩⟩ false ::
        (List.replicate (f.payload.length + 6) (.pushed true) ++ s.outputs) } ∧
    exec (.pushColor f) s = .next { s with
      rxBuf := []
      outputs := .attempted ⟨.ok, .noReason, s.rxBuf.length + f.payload.length + 6,
        some ⟨s.rxBuf.length, 0x11#8, BitVec.ofNat 8 f.payload.length, f.payload⟩⟩ false ::
        (List.replicate (f.payload.length + 6) (.pushed true) ++ s.outputs) } ∧
    exec (.mixColor f) s = .next { s with
      rxBuf := []
      outputs := .attempted ⟨.ok, .noReason, s.rxBuf.length + f.payload.length + 6,
        some ⟨s.rxBuf.length, 0x12#8, BitVec.ofNat 8 f.payload.length, f.payload⟩⟩ false ::
        (List.replicate (f.payload.length + 6) (.pushed true) ++ s.outputs) } ∧
    exec (.controlIo f) s = .next { s with
      rxBuf := []
      outputs := .attempted ⟨.ok, .noReason, s.rxBuf.length + f.payload.length + 6,
        some ⟨s.rxBuf.length, 0x13#8, BitVec.ofNat 8 f.payload.length, f.payload⟩⟩ false ::
        (List.replicate (f.payload.length + 6) (.pushed true) ++ s.outputs) } ∧
    exec (.calibration f) s = .next { s with
      rxBuf := []
      outputs := .attempted ⟨.ok, .noReason, s.rxBuf.length + f.payload.length + 6,
        some ⟨s.rxBuf.length, 0x14#8, BitVec.ofNat 8 f.payload.length, f.payload⟩⟩ false ::
        (List.replicate (f.payload.length + 6) (.pushed true) ++ s.outputs) } ∧
    exec (.doorControl f) s = .next { s with
      rxBuf := []
      outputs := .attempted ⟨.ok, .noReason, s.rxBuf.length + f.payload.length + 6,
        some ⟨s.rxBuf.length, 0x15#8, BitVec.ofNat 8 f.payload.length, f.payload⟩⟩ false ::
        (List.replicate (f.payload.length + 6) (.pushed true) ++ s.outputs) } ∧
    exec (.setExpireUsageTime f) s = .next { s with
      rxBuf := []
      outputs := .attempted ⟨.ok, .noReason, s.rxBuf.length + f.payload.length + 6,
        some ⟨s.rxBuf.length, 0x16#8, BitVec.ofNat 8 f.payload.length, f.payload⟩⟩ false ::
        (List.replicate (f.payload.length + 6) (.pushed true) ++ s.outputs) } ∧
    exec (.getExpireUsageTime f) s = .next { s with
      rxBuf := []
      outputs := .attempted ⟨.ok, .noReason, s.rxBuf.length + f.payload.length + 6,
        some ⟨s.rxBuf.length, 0x17#8, BitVec.ofNat 8 f.payload.length, f.payload⟩⟩ false ::
        (List.replicate (f.payload.length + 6) (.pushed true) ++ s.outputs) } ∧
    exec (.pushColorWithDirection f) s = .next { s with
      rxBuf := []
      outputs := .attempted ⟨.ok, .noReason, s.rxBuf.length + f.payload.length + 6,
        some ⟨s.rxBuf.length, 0x19#8, BitVec.ofNat 8 f.payload.length, f.payload⟩⟩ false ::
        (List.replicate (f.payload.length + 6) (.pushed true) ++ s.outputs) }

/-- 43_command_catalog.md sections 1 and 4, 42_stream_reassembler.md sections 2 to 4, 90_conflicts.md C6,
92_eei_decisions.md D13. Each good status-push frame arriving is received whole and handed out under its own code.
Rests on the spec's own decision D13. The model's own choices in it: log 6. -/
def Obligations.StatusPushFramesAreHandedOut : Prop :=
  ∀ (f : FrameBody) (s : State), f.payload.length ≤ 255 → f.checksumHi = hiByte (checksum f.payload) →
    f.checksumLo = loByte (checksum f.payload) → f.stop = 0x79#8 → 0x78#8 ∉ s.rxBuf →
    s.rxBuf.length + f.payload.length + 6 ≤ s.params.rxCap →
    exec (.deviceError f) s = .next { s with
      rxBuf := []
      outputs := .attempted ⟨.ok, .noReason, s.rxBuf.length + f.payload.length + 6,
        some ⟨s.rxBuf.length, 0x30#8, BitVec.ofNat 8 f.payload.length, f.payload⟩⟩ false ::
        (List.replicate (f.payload.length + 6) (.pushed true) ++ s.outputs) } ∧
    exec (.inputStatus f) s = .next { s with
      rxBuf := []
      outputs := .attempted ⟨.ok, .noReason, s.rxBuf.length + f.payload.length + 6,
        some ⟨s.rxBuf.length, 0x31#8, BitVec.ofNat 8 f.payload.length, f.payload⟩⟩ false ::
        (List.replicate (f.payload.length + 6) (.pushed true) ++ s.outputs) } ∧
    exec (.machineStatus f) s = .next { s with
      rxBuf := []
      outputs := .attempted ⟨.ok, .noReason, s.rxBuf.length + f.payload.length + 6,
        some ⟨s.rxBuf.length, 0x32#8, BitVec.ofNat 8 f.payload.length, f.payload⟩⟩ false ::
        (List.replicate (f.payload.length + 6) (.pushed true) ++ s.outputs) } ∧
    exec (.pipelineStatus f) s = .next { s with
      rxBuf := []
      outputs := .attempted ⟨.ok, .noReason, s.rxBuf.length + f.payload.length + 6,
        some ⟨s.rxBuf.length, 0x33#8, BitVec.ofNat 8 f.payload.length, f.payload⟩⟩ false ::
        (List.replicate (f.payload.length + 6) (.pushed true) ++ s.outputs) }

/-- 43_command_catalog.md section 1, 42_stream_reassembler.md sections 2 to 5, 92_eei_decisions.md D14. A frame of any
kind arriving with a wrong checksum pair is reported Invalid and not handed out. Rests on the spec's own decision D14.
The model's own choices in it: log 6. -/
def Obligations.FrameWithBadChecksumIsInvalid : Prop :=
  ∀ (k : Byte) (f : FrameBody) (i : Instr) (s : State), frameKind k f = some i → f.payload.length ≤ 255 →
    f.checksumHi ≠ hiByte (checksum f.payload) ∨ f.checksumLo ≠ loByte (checksum f.payload) → 0x78#8 ∉ s.rxBuf →
    s.rxBuf.length + f.payload.length + 6 ≤ s.params.rxCap →
    exec i s = .next ((s.withPushed (frameBytes k f)).afterAttempt ⟨.invalid, .badChecksum, 0, none⟩)

/-- 43_command_catalog.md section 1, 42_stream_reassembler.md sections 2 to 5, 92_eei_decisions.md D14. A frame of any
kind arriving with the right checksum pair and a wrong stop byte is reported Invalid and not handed out. Rests on the
spec's own decision D14. The model's own choices in it: log 6. -/
def Obligations.FrameWithBadStopIsInvalid : Prop :=
  ∀ (k : Byte) (f : FrameBody) (i : Instr) (s : State), frameKind k f = some i → f.payload.length ≤ 255 →
    f.checksumHi = hiByte (checksum f.payload) → f.checksumLo = loByte (checksum f.payload) → f.stop ≠ 0x79#8 → 0x78#8 ∉ s.rxBuf →
    s.rxBuf.length + f.payload.length + 6 ≤ s.params.rxCap →
    exec i s = .next ((s.withPushed (frameBytes k f)).afterAttempt ⟨.invalid, .badStop, 0, none⟩)

/-- 30_encoding.md section 7, 42_stream_reassembler.md section 8. A frame row is the script of one RX_PUSH per byte
and one RX_ATTEMPT, in every state. The model's own choices in it: log 6. -/
def Obligations.FrameArrivalIsItsScript : Prop :=
  ∀ (k : Byte) (f : FrameBody) (i : Instr) (s : State), frameKind k f = some i →
    exec i s = execAll (chunkScript (frameBytes k f)) s

/-- 43_command_catalog.md section 1, 10_state.md section 6, 20_memory.md section 6, 42_stream_reassembler.md sections
2 to 5, 92_eei_decisions.md D8, 92_eei_decisions.md D10, 92_eei_decisions.md D13, 92_eei_decisions.md D14. What a
frame's arrival changes and what it leaves, for all 22 frame kinds. Rests on the spec's own decisions D8, D10, D13,
D14. The model's own choices in it: log 6, log 1, log 4. -/
def Obligations.FrameArrivalLeavesTheRest : Prop :=
  ∀ (k : Byte) (f : FrameBody) (i : Instr) (s t : State), frameKind k f = some i → exec i s = .next t →
    t.params = s.params ∧ t.chkAcc = s.chkAcc ∧ t.requests = s.requests ∧ t.sink = s.sink ∧
    t.rxOverrun = (s.rxOverrun || decide (s.params.rxCap - s.rxBuf.length < (frameBytes k f).length)) ∧
    ∃ B v, B = s.rxBuf ++ (frameBytes k f).take (s.params.rxCap - s.rxBuf.length) ∧ tryExtract B = .ok v ∧
      (∀ a < s.rxFill, Memory.read B a = s.rxBuf.read a) ∧
      ((v.status = .ok ∧ t.rxBuf = B.drop v.consumed) ∨
       (v.status ≠ .ok ∧ s.params.rxCeiling < B.length ∧ t.rxBuf = []) ∨
       (v.status ≠ .ok ∧ B.length ≤ s.params.rxCeiling ∧ t.rxBuf = B))

/-- 70_reset_and_hazards.md section 1, 92_eei_decisions.md D17. RESET clears chk_acc, rx_fill and rx_overrun and
changes nothing else. Rests on the spec's own decision D17. The model's own choices in it: log 7. -/
def Obligations.ResetResult : Prop :=
  ∀ s : State, exec .blockReset s = .next { s with
    chkAcc := 0x0000#16, rxBuf := [], rxOverrun := false, outputs := .nothing :: s.outputs }

/-- 70_reset_and_hazards.md section 1, 92_eei_decisions.md D17. At power-up chk_acc, rx_fill and rx_overrun are 0, as
they are after RESET from any state. Rests on the spec's own decision D17. -/
def Obligations.PowerUpStateIsTheResetState : Prop :=
  (State.reset.chkAcc = 0x0000#16 ∧ State.reset.rxFill = 0 ∧ State.reset.rxOverrun = false) ∧
  (∀ s : State, ∃ t, exec .blockReset s = .next t ∧ t.chkAcc = State.reset.chkAcc ∧ t.rxBuf = State.reset.rxBuf ∧
    t.rxOverrun = State.reset.rxOverrun)

/-- 70_reset_and_hazards.md section 1, 10_state.md section 10. The invariant holds at reset. The model's own choices
in it: log 1, log 12. -/
def Obligations.InvariantHoldsAtReset : Prop :=
  State.reset.Inv

/-- 10_state.md section 10, 20_memory.md sections 4 and 6, 41_frame_encoder.md section 2. Every step keeps: legal
parameters, rx_fill <= RX_CAP, and a sink of whole frames back to back. -/
def Obligations.EveryStepKeepsTheInvariant : Prop :=
  ∀ s t : State, s.Inv → step s = .next t → t.Inv

/-- 10_state.md section 10. Every instruction keeps rx_fill <= RX_CAP. The spec marks the rule as derived by itself
("[derived: ...]"). -/
def Obligations.FillStaysWithinCapacity : Prop :=
  ∀ (i : Instr) (s t : State), s.rxFill ≤ s.params.rxCap → exec i s = .next t → t.rxFill ≤ t.params.rxCap

/-- R23. An operation appends one byte, removes the prefix an Ok consumes, removes all, or leaves the buffer. -/
def Obligations.BufferChangesOnlyInThreeWays : Prop :=
  ∀ (i : Instr) (s t : State), isOperation i = true → exec i s = .next t →
    t.rxBuf = s.rxBuf ∨
    (∃ b, i = .rxPush b ∧ t.outputs = .pushed true :: s.outputs ∧ t.rxBuf = s.rxBuf ++ [b]) ∨
    (i = .rxAttempt ∧ ∃ v, v.status = .ok ∧ t.outputs = .attempted v false :: s.outputs ∧
      v.consumed ≤ s.rxFill ∧ t.rxBuf = s.rxBuf.drop v.consumed) ∨
    ((i = .blockReset ∨ (i = .rxAttempt ∧ ∃ v, v.status ≠ .ok ∧ t.outputs = .attempted v true :: s.outputs)) ∧
      t.rxBuf = [])

/-- 10_state.md section 10, 92_eei_decisions.md D10. Only RESET clears rx_overrun. Rests on the spec's own decision
D10. The spec marks the rule as derived by itself ("[derived: ...]"). -/
def Obligations.OverrunIsStickyUntilReset : Prop :=
  (∀ (i : Instr) (s t : State), i ≠ .blockReset → s.rxOverrun = true → exec i s = .next t → t.rxOverrun = true) ∧
  (∀ s : State, ∃ t, exec .blockReset s = .next t ∧ t.rxOverrun = false)

/-- 10_state.md sections 3 and 6, 20_memory.md section 6, 92_eei_decisions.md D4, 92_eei_decisions.md D8,
92_eei_decisions.md D23. An instruction of one unit leaves the other units' state; none writes the parameters or
requests. Rests on the spec's own decisions D4, D8, D23. The model's own choices in it: log 1, log 4. -/
def Obligations.EachUnitOwnsItsState : Prop :=
  ∀ (i : Instr) (s t : State), exec i s = .next t →
    (unitOf i ≠ .checksum → unitOf i ≠ .all → t.chkAcc = s.chkAcc) ∧
    (unitOf i ≠ .reassembler → unitOf i ≠ .all → t.rxBuf = s.rxBuf ∧ t.rxOverrun = s.rxOverrun) ∧
    (unitOf i ≠ .encoder → t.sink = s.sink) ∧ s.sink <+: t.sink ∧
    t.params = s.params ∧ t.requests = s.requests

/-- 10_state.md section 6, 20_memory.md section 6, 92_eei_decisions.md D4, 92_eei_decisions.md D8, 92_eei_decisions.md
D23. Instructions of different units, RESET apart, commute. Rests on the spec's own decisions D4, D8, D23. The model's
own choices in it: log 1, log 4. -/
def Obligations.OperationsOfDifferentUnitsCommute : Prop :=
  ∀ (i j : Instr) (s : State), unitOf i ≠ unitOf j → unitOf i ≠ .all → unitOf j ≠ .all →
    ∃ t u, execAll [i, j] s = .next t ∧ execAll [j, i] s = .next u ∧
      t.chkAcc = u.chkAcc ∧ t.rxBuf = u.rxBuf ∧ t.rxOverrun = u.rxOverrun ∧ t.sink = u.sink ∧
      t.params = u.params ∧ t.requests = u.requests ∧ t.outputs.Perm u.outputs

/-- 00_scope.md section 6, 60_exceptions.md section 2, 70_reset_and_hazards.md sections 1 and 3. Every instruction
completes in every state, delivers at least one record and keeps the earlier ones. The model's own choices in it: log
7, log 6. -/
def Obligations.EveryInstructionCompletes : Prop :=
  ∀ (i : Instr) (s : State), ∃ t new, exec i s = .next t ∧ new ≠ [] ∧ t.outputs = new ++ s.outputs

/-- 30_encoding.md section 6, 42_stream_reassembler.md section 8, 70_reset_and_hazards.md section 1,
93_implementation_defined.md section 2. A step answers a next state exactly if the parameters are legal. The model's
own choices in it: log 2, log 14, log 9, log 10. -/
def Obligations.LegalBlockAlwaysSteps : Prop :=
  (∀ s : State, s.params.legal = true → ∃ t, step s = .next t) ∧
  (∀ s : State, s.params.legal = false → step s = .refused .illegalParameters)

/-- 20_memory.md section 6. A step executes the instruction its oldest request decodes to. The model's own choices in
it: log 4. -/
def Obligations.StepRunsTheDecodedInstruction : Prop :=
  ∀ (s : State) (r : Request) (rs : List Request) (i : Instr), s.params.legal = true → s.requests = r :: rs →
    decode r = .ok i → i.wellFormed = true → step s = exec i { s with requests := rs }

/-- 30_encoding.md sections 6 and 7, 42_stream_reassembler.md section 8. With no request the block idles; op 6 is
ignored; any other chunk is pushed and attempted. The model's own choices in it: log 14, log 9, log 10. -/
def Obligations.StepOnRequestsThatAreNoInstruction : Prop :=
  ∀ s : State, s.params.legal = true →
    (s.requests = [] → step s = .next s) ∧
    (∀ (b : Byte) (p : List Byte) (rs : List Request), s.requests = .port ⟨6, b, p⟩ :: rs →
      step s = .next { s with requests := rs }) ∧
    (∀ (bytes : List Byte) (rs : List Request) (e : DecodeError), s.requests = .chunk bytes :: rs →
      decode (.chunk bytes) = .error e →
      step s = execAll (chunkScript bytes) { s with requests := rs })
end

