-- ==== Sys2Proof/Laws/Checksum.lean ====
section
/-!
SUPPORT. The checksum (`40_checksum.md`): its step and its fold as numbers, and the two bytes of a 16-bit value (R49).
-/
namespace Sys2Proof.Machine

/-- `CHK_STEP(a, b) = (a + zext_16(b)) mod 65536` as numbers (R57). -/
theorem chkStep_toNat (a : Half) (b : Byte) : (chkStep a b).toNat = (a.toNat + b.toNat) % 65536 := by
  have := b.isLt
  simp [chkStep, BitVec.toNat_add, BitVec.toNat_setWidth]

@[simp] theorem checksum_nil : checksum [] = 0x0000#16 := rfl

/-- The fold from any accumulator adds the bytes' values, modulo 65536. -/
theorem foldl_chkStep_toNat (p : List Byte) (a : Half) :
    (p.foldl chkStep a).toNat = (a.toNat + (p.map BitVec.toNat).sum) % 65536 := by
  induction p generalizing a with
  | nil => simp [Nat.mod_eq_of_lt a.isLt]
  | cons b p ih => rw [List.foldl_cons, ih, chkStep_toNat]; simp; omega

theorem hiByte_toNat (c : Half) : (hiByte c).toNat = c.toNat / 256 := by
  have := c.isLt
  simp [hiByte, Nat.shiftRight_eq_div_pow]; omega

theorem loByte_toNat (c : Half) : (loByte c).toNat = c.toNat % 256 := by
  simp [loByte]

/-- `(hi << 8) | lo` as a number (R49). -/
theorem fromBytes_toNat (hi lo : Byte) : (fromBytes hi lo).toNat = hi.toNat * 256 + lo.toNat := by
  have := lo.isLt
  unfold fromBytes
  refine (BitVec.toNat_append hi lo).trans ?_
  rw [← Nat.shiftLeft_add_eq_or_of_lt (by omega), Nat.shiftLeft_eq]

/-- The two bytes of a 16-bit value put together give it back (R49). -/
theorem fromBytes_split (c : Half) : fromBytes (hiByte c) (loByte c) = c := by
  apply BitVec.eq_of_toNat_eq
  rw [fromBytes_toNat, hiByte_toNat, loByte_toNat]; omega

/-- A received pair equals a 16-bit value exactly when its bytes do (R49). -/
theorem fromBytes_eq_iff (hi lo : Byte) (c : Half) : fromBytes hi lo = c ↔ hi = hiByte c ∧ lo = loByte c := by
  have hh := hi.isLt
  have hl := lo.isLt
  constructor
  · rintro rfl
    constructor <;> apply BitVec.eq_of_toNat_eq
    · rw [hiByte_toNat, fromBytes_toNat]; omega
    · rw [loByte_toNat, fromBytes_toNat]; omega
  · rintro ⟨rfl, rfl⟩; exact fromBytes_split c

end Sys2Proof.Machine
end

