-- ==== Sys2Proof/Laws/Decode.lean ====
section
/-!
SUPPORT. The decoder and the encoder (`30_encoding.md`): the frame-kind table against R47's predicate, and reading the
bytes of a frame back (R40, R51).
-/
namespace Sys2Proof

/-- R47's predicate, spelled out as the 22 codes. -/
theorem isKnown_cases : ∀ v : Byte, isKnown v = true →
    v = 0x01#8 ∨ v = 0x02#8 ∨ v = 0x03#8 ∨ v = 0x04#8 ∨ v = 0x05#8 ∨ v = 0x06#8 ∨ v = 0x07#8 ∨ v = 0x08#8 ∨
    v = 0x09#8 ∨ v = 0x10#8 ∨ v = 0x11#8 ∨ v = 0x12#8 ∨ v = 0x13#8 ∨ v = 0x14#8 ∨ v = 0x15#8 ∨ v = 0x16#8 ∨
    v = 0x17#8 ∨ v = 0x19#8 ∨ v = 0x30#8 ∨ v = 0x31#8 ∨ v = 0x32#8 ∨ v = 0x33#8 := by
  decide

/-- A recognised code has a frame kind, which encodes to that code's frame and is well formed with its body. -/
theorem frameKind_of_known {k : Byte} (h : isKnown k = true) (f : FrameBody) :
    ∃ i, frameKind k f = some i ∧ encode i = .chunk (frameBytes k f) ∧ i.wellFormed = f.wellFormed := by
  rcases isKnown_cases k h with rfl | rfl | rfl | rfl | rfl | rfl | rfl | rfl | rfl | rfl | rfl | rfl | rfl | rfl |
    rfl | rfl | rfl | rfl | rfl | rfl | rfl | rfl <;> exact ⟨_, rfl, rfl, rfl⟩

/-- The values outside R47's predicate are outside its list. -/
theorem not_listed_of_unknown : ∀ v : Byte, isKnown v = false →
    v.toNat ∉ [1, 2, 3, 4, 5, 6, 7, 8, 9, 16, 17, 18, 19, 20, 21, 22, 23, 25, 48, 49, 50, 51] := by
  decide

/-- A code with a frame kind is a recognised one. -/
theorem known_of_frameKind {k : Byte} {f : FrameBody} {i : Instr} (h : frameKind k f = some i) : isKnown k = true := by
  by_contra hk
  have hn := not_listed_of_unknown k (by simpa using hk)
  unfold frameKind at h
  split at h <;> first | (cases h; done) | (rename_i e; exact hn (by simp [e]))

theorem FrameBody.wellFormed_iff {f : FrameBody} : f.wellFormed = true ↔ f.payload.length ≤ 255 := by
  simp [FrameBody.wellFormed]

/-- The length byte of a well-formed body counts its payload (R43). -/
theorem lengthByte_toNat {n : Nat} (h : n ≤ 255) : (BitVec.ofNat 8 n).toNat = n := by
  simp only [BitVec.toNat_ofNat]; omega

/-- Reading a well-formed frame off the front gives its kind and leaves the rest (R51). -/
theorem decodeFrame_frameBytes {k : Byte} {f : FrameBody} {i : Instr} (hk : isKnown k = true)
    (hf : f.wellFormed = true) (hi : frameKind k f = some i) (more : List Byte) :
    decodeFrame (frameBytes k f ++ more) = .ok (i, more) := by
  obtain ⟨p, hb, lb, st⟩ := f
  have hl := lengthByte_toNat (FrameBody.wellFormed_iff.mp hf)
  simp only at hl
  simp [decodeFrame, frameBytes, hk, hl, hi]

/-- What the decoder reads as a frame is the bytes of a well-formed frame of a recognised code. -/
theorem decodeFrame_ok {bytes more : List Byte} {i : Instr} (h : decodeFrame bytes = .ok (i, more)) :
    ∃ k f, isKnown k = true ∧ f.wellFormed = true ∧ frameKind k f = some i ∧ bytes = frameBytes k f ++ more := by
  unfold decodeFrame at h
  split at h
  · rename_i start cmd len rest
    split at h
    · cases h
    · rename_i hs
      split at h
      · cases h
      · rename_i hk
        split at h
        · rename_i hi lo stop more' hd
          split at h
          · rename_i j hj
            cases h
            have hlen : (rest.take len.toNat).length = len.toNat := by
              have := congrArg List.length hd
              simp only [List.length_drop, List.length_cons] at this
              simp only [List.length_take]; omega
            refine ⟨cmd, _, by simpa using hk, ?_, hj, ?_⟩
            · have := len.isLt
              rw [FrameBody.wellFormed_iff]; simp only [hlen]; omega
            · have := List.take_append_drop len.toNat rest
              rw [hd] at this
              simp only [ne_eq, Decidable.not_not] at hs
              simp [frameBytes, hs, hlen, this]
          · cases h
        · cases h
  · cases h

/-- A chunk that is exactly one frame decodes to its kind. -/
theorem decode_chunk {bytes : List Byte} {i : Instr} :
    decode (.chunk bytes) = .ok i ↔ decodeFrame bytes = .ok (i, []) := by
  simp only [decode]
  split <;> simp_all

end Sys2Proof
end

