-- ==== Sys2Proof/Laws/State.lean ====
section
/-!
SUPPORT. One lemma per field per named update of the state, and for `rx_fill`: no later proof unfolds a record update.
-/
namespace Sys2Proof.Machine

variable (s : State)

@[simp] theorem State.setChkAcc_params (v : Half) : (s.setChkAcc v).params = s.params := rfl
@[simp] theorem State.setChkAcc_chkAcc (v : Half) : (s.setChkAcc v).chkAcc = v := rfl
@[simp] theorem State.setChkAcc_rxBuf (v : Half) : (s.setChkAcc v).rxBuf = s.rxBuf := rfl
@[simp] theorem State.setChkAcc_rxOverrun (v : Half) : (s.setChkAcc v).rxOverrun = s.rxOverrun := rfl
@[simp] theorem State.setChkAcc_requests (v : Half) : (s.setChkAcc v).requests = s.requests := rfl
@[simp] theorem State.setChkAcc_outputs (v : Half) : (s.setChkAcc v).outputs = s.outputs := rfl
@[simp] theorem State.setChkAcc_sink (v : Half) : (s.setChkAcc v).sink = s.sink := rfl
@[simp] theorem State.setChkAcc_rxFill (v : Half) : (s.setChkAcc v).rxFill = s.rxFill := rfl

@[simp] theorem State.setRxBuf_params (m : Memory) : (s.setRxBuf m).params = s.params := rfl
@[simp] theorem State.setRxBuf_chkAcc (m : Memory) : (s.setRxBuf m).chkAcc = s.chkAcc := rfl
@[simp] theorem State.setRxBuf_rxBuf (m : Memory) : (s.setRxBuf m).rxBuf = m := rfl
@[simp] theorem State.setRxBuf_rxOverrun (m : Memory) : (s.setRxBuf m).rxOverrun = s.rxOverrun := rfl
@[simp] theorem State.setRxBuf_requests (m : Memory) : (s.setRxBuf m).requests = s.requests := rfl
@[simp] theorem State.setRxBuf_outputs (m : Memory) : (s.setRxBuf m).outputs = s.outputs := rfl
@[simp] theorem State.setRxBuf_sink (m : Memory) : (s.setRxBuf m).sink = s.sink := rfl
@[simp] theorem State.setRxBuf_rxFill (m : Memory) : (s.setRxBuf m).rxFill = m.length := rfl

@[simp] theorem State.setRxOverrun_params (v : Bool) : (s.setRxOverrun v).params = s.params := rfl
@[simp] theorem State.setRxOverrun_chkAcc (v : Bool) : (s.setRxOverrun v).chkAcc = s.chkAcc := rfl
@[simp] theorem State.setRxOverrun_rxBuf (v : Bool) : (s.setRxOverrun v).rxBuf = s.rxBuf := rfl
@[simp] theorem State.setRxOverrun_rxOverrun (v : Bool) : (s.setRxOverrun v).rxOverrun = v := rfl
@[simp] theorem State.setRxOverrun_requests (v : Bool) : (s.setRxOverrun v).requests = s.requests := rfl
@[simp] theorem State.setRxOverrun_outputs (v : Bool) : (s.setRxOverrun v).outputs = s.outputs := rfl
@[simp] theorem State.setRxOverrun_sink (v : Bool) : (s.setRxOverrun v).sink = s.sink := rfl
@[simp] theorem State.setRxOverrun_rxFill (v : Bool) : (s.setRxOverrun v).rxFill = s.rxFill := rfl

@[simp] theorem State.setRequests_params (rs : List Request) : (s.setRequests rs).params = s.params := rfl
@[simp] theorem State.setRequests_chkAcc (rs : List Request) : (s.setRequests rs).chkAcc = s.chkAcc := rfl
@[simp] theorem State.setRequests_rxBuf (rs : List Request) : (s.setRequests rs).rxBuf = s.rxBuf := rfl
@[simp] theorem State.setRequests_rxOverrun (rs : List Request) : (s.setRequests rs).rxOverrun = s.rxOverrun := rfl
@[simp] theorem State.setRequests_requests (rs : List Request) : (s.setRequests rs).requests = rs := rfl
@[simp] theorem State.setRequests_outputs (rs : List Request) : (s.setRequests rs).outputs = s.outputs := rfl
@[simp] theorem State.setRequests_sink (rs : List Request) : (s.setRequests rs).sink = s.sink := rfl
@[simp] theorem State.setRequests_rxFill (rs : List Request) : (s.setRequests rs).rxFill = s.rxFill := rfl

@[simp] theorem State.report_params (o : Output) : (s.report o).params = s.params := rfl
@[simp] theorem State.report_chkAcc (o : Output) : (s.report o).chkAcc = s.chkAcc := rfl
@[simp] theorem State.report_rxBuf (o : Output) : (s.report o).rxBuf = s.rxBuf := rfl
@[simp] theorem State.report_rxOverrun (o : Output) : (s.report o).rxOverrun = s.rxOverrun := rfl
@[simp] theorem State.report_requests (o : Output) : (s.report o).requests = s.requests := rfl
@[simp] theorem State.report_outputs (o : Output) : (s.report o).outputs = o :: s.outputs := rfl
@[simp] theorem State.report_sink (o : Output) : (s.report o).sink = s.sink := rfl
@[simp] theorem State.report_rxFill (o : Output) : (s.report o).rxFill = s.rxFill := rfl

@[simp] theorem State.deliver_params (bytes : List Byte) : (s.deliver bytes).params = s.params := rfl
@[simp] theorem State.deliver_chkAcc (bytes : List Byte) : (s.deliver bytes).chkAcc = s.chkAcc := rfl
@[simp] theorem State.deliver_rxBuf (bytes : List Byte) : (s.deliver bytes).rxBuf = s.rxBuf := rfl
@[simp] theorem State.deliver_rxOverrun (bytes : List Byte) : (s.deliver bytes).rxOverrun = s.rxOverrun := rfl
@[simp] theorem State.deliver_requests (bytes : List Byte) : (s.deliver bytes).requests = s.requests := rfl
@[simp] theorem State.deliver_outputs (bytes : List Byte) : (s.deliver bytes).outputs = s.outputs := rfl
@[simp] theorem State.deliver_sink (bytes : List Byte) : (s.deliver bytes).sink = s.sink ++ bytes := rfl
@[simp] theorem State.deliver_rxFill (bytes : List Byte) : (s.deliver bytes).rxFill = s.rxFill := rfl

/-- `rx_fill` is the length of the buffer (R15). -/
theorem State.rxFill_eq : s.rxFill = s.rxBuf.length := rfl

/-- Setting a field to what it holds changes nothing. -/
theorem State.setRxBuf_self : s.setRxBuf s.rxBuf = s := rfl

/-- With a request issued, taking one takes the oldest and leaves the rest (R35). -/
theorem takeRequest_cons {s : State} {r : Request} {rs : List Request} (h : s.requests = r :: rs) :
    takeRequest s = some (r, s.setRequests rs) := by
  simp [takeRequest, h]

/-- With none issued there is none to take. -/
theorem takeRequest_nil {s : State} (h : s.requests = []) : takeRequest s = none := by
  simp [takeRequest, h]

end Sys2Proof.Machine
end

