-- ==== Sys2Proof/Laws/Memory.lean ====
section
/-!
SUPPORT. The receive buffer as memory (`20_memory.md`): reading below `rx_fill` succeeds and at or beyond it faults (R27),
what append and prefix removal do to every read (R25, R26), and that every operation keeps R22.
-/
namespace Sys2Proof.Machine

variable {m : Memory} {i n : Nat} {b : Byte}

theorem Memory.read_lt (h : i < m.length) : m.read i = .ok m[i] := by
  simp [Memory.read, h]

theorem Memory.read_ge (h : m.length ≤ i) : m.read i = .error (.noSuchCell i) := by
  simp [Memory.read, h]

/-- A read that succeeds was of an index that exists (R27). -/
theorem Memory.read_ok_iff : m.read i = .ok b ↔ m[i]? = some b := by
  unfold Memory.read; split <;> simp_all

/-- An append leaves every older byte where it was (R25). -/
theorem Memory.read_append_old (h : i < m.length) : (m.append b).read i = m.read i := by
  simp [Memory.read, Memory.append, List.getElem?_append_left h]

/-- The appended byte reads back at `rx_fill` (R25). -/
theorem Memory.read_append_new : (m.append b).read m.length = .ok b := by
  simp [Memory.read, Memory.append]

/-- More bytes behind the buffer leave every read of it as it was. -/
theorem Memory.read_extend {more : List Byte} (h : i < m.length) :
    Memory.read (m ++ more) i = m.read i := by
  simp [Memory.read, List.getElem?_append_left h]

/-- What was at index `n + i` is at `i` after `n` bytes are removed (R26). -/
theorem Memory.read_removePrefix (h : n + i < m.length) : (m.removePrefix n).read i = m.read (n + i) := by
  rw [Memory.read_lt h, Memory.read_lt (by simp only [Memory.removePrefix, List.length_drop]; omega)]
  simp [Memory.removePrefix]

/-- The single-byte reads of a region below `rx_fill` give the region. -/
theorem Memory.readSeq_ok (h : i + n ≤ m.length) : m.readSeq i n = .ok ((m.drop i).take n) := by
  induction n generalizing i with
  | zero => simp [Memory.readSeq]
  | succ n ih =>
    have hi : i < m.length := by omega
    rw [Memory.readSeq, Memory.read_lt hi, ih (by omega), List.drop_eq_getElem_cons hi, List.take_succ_cons]

/-- The addresses of the cells rise strictly: the canonical form holds by construction. -/
theorem Memory.cells_rise (m : Memory) : (m.cells.map Prod.fst).Pairwise (· < ·) := by
  have : m.cells.map Prod.fst = List.range m.length := by
    simp [Memory.cells, List.map_map, Function.comp_def, List.zipIdx_map_snd, List.range_eq_range']
  rw [this]; exact List.pairwise_lt_range

theorem Memory.wf_iff {cap : Nat} : m.wf cap = true ↔ m.length ≤ cap := by simp [Memory.wf]

/-- An append into a buffer with room keeps R22. -/
theorem Memory.wf_append {cap : Nat} (h : m.length < cap) : (m.append b).wf cap = true := by
  simp [Memory.wf, Memory.append]; omega

/-- Removing a prefix keeps R22. -/
theorem Memory.wf_removePrefix {cap : Nat} (h : m.wf cap = true) : (m.removePrefix n).wf cap = true := by
  simp [Memory.wf, Memory.removePrefix] at *; omega

/-- A cleared buffer meets R22. -/
theorem Memory.wf_clear {cap : Nat} : m.clear.wf cap = true := by simp [Memory.wf, Memory.clear]

/-- The buffer at reset meets R22 for every capacity. -/
theorem reset_wf {cap : Nat} : State.reset.rxBuf.wf cap = true := by simp [State.reset, Memory.wf]

end Sys2Proof.Machine
end

