-- ==== Sys2Proof/Laws/Reassembler.lean ====
section
/-!
SUPPORT. What the reassembler's shared operations can do: a push (R78), a run of pushes, `tryExtract` as a function of
the bytes behind the first start byte (R80), and the end of an attempt (R79).
-/
namespace Sys2Proof.Machine

/-! A push. -/

theorem State.hasRoom_iff {s : State} : s.hasRoom = true ↔ s.rxFill < s.params.rxCap := by simp [State.hasRoom]

theorem State.overCeiling_iff {s : State} : s.overCeiling = true ↔ s.params.rxCeiling < s.rxFill := by
  simp [State.overCeiling]

/-- Everything a push can do (R78). -/
theorem rxPush_cases (b : Byte) (s : State) :
    (s.rxFill < s.params.rxCap ∧ rxPush b s = (s.setRxBuf (s.rxBuf ++ [b])).report (.pushed true)) ∨
    (s.params.rxCap ≤ s.rxFill ∧ rxPush b s = (s.setRxOverrun true).report (.pushed false)) := by
  unfold rxPush Memory.append
  split
  · rename_i h; exact .inl ⟨State.hasRoom_iff.mp h, rfl⟩
  · rename_i h
    refine .inr ⟨?_, rfl⟩
    simp only [State.hasRoom_iff] at h; omega

section Push
variable (b : Byte) (s : State)

@[simp] theorem rxPush_params : (rxPush b s).params = s.params := by unfold rxPush; split <;> rfl
@[simp] theorem rxPush_chkAcc : (rxPush b s).chkAcc = s.chkAcc := by unfold rxPush; split <;> rfl
@[simp] theorem rxPush_requests : (rxPush b s).requests = s.requests := by unfold rxPush; split <;> rfl
@[simp] theorem rxPush_sink : (rxPush b s).sink = s.sink := by unfold rxPush; split <;> rfl

end Push

/-! A run of pushes. -/

section PushAll
variable (bytes : List Byte) (s : State)

@[simp] theorem pushAll_nil : pushAll [] s = s := rfl
theorem pushAll_cons (b : Byte) : pushAll (b :: bytes) s = pushAll bytes (rxPush b s) := rfl

@[simp] theorem pushAll_params : (pushAll bytes s).params = s.params := by
  induction bytes generalizing s with
  | nil => rfl
  | cons b bs ih => rw [pushAll_cons, ih, rxPush_params]

@[simp] theorem pushAll_chkAcc : (pushAll bytes s).chkAcc = s.chkAcc := by
  induction bytes generalizing s with
  | nil => rfl
  | cons b bs ih => rw [pushAll_cons, ih, rxPush_chkAcc]

@[simp] theorem pushAll_requests : (pushAll bytes s).requests = s.requests := by
  induction bytes generalizing s with
  | nil => rfl
  | cons b bs ih => rw [pushAll_cons, ih, rxPush_requests]

@[simp] theorem pushAll_sink : (pushAll bytes s).sink = s.sink := by
  induction bytes generalizing s with
  | nil => rfl
  | cons b bs ih => rw [pushAll_cons, ih, rxPush_sink]

/-- The bytes that find room are stored, in order, and the rest are lost (R78). -/
theorem pushAll_rxBuf :
    (pushAll bytes s).rxBuf = s.rxBuf ++ bytes.take (s.params.rxCap - s.rxBuf.length) := by
  induction bytes generalizing s with
  | nil => simp
  | cons b bs ih =>
    rw [pushAll_cons, ih, rxPush_params]
    rcases rxPush_cases b s with ⟨h, e⟩ | ⟨h, e⟩
    · rw [State.rxFill_eq] at h
      obtain ⟨n, hn⟩ : ∃ n, s.params.rxCap - s.rxBuf.length = n + 1 := ⟨s.params.rxCap - s.rxBuf.length - 1, by omega⟩
      have : s.params.rxCap - (s.rxBuf.length + 1) = n := by omega
      simp [e, hn, this]
    · rw [State.rxFill_eq] at h
      have : s.params.rxCap - s.rxBuf.length = 0 := by omega
      simp [e, this]

/-- `rx_overrun` ends set when it was, or when a byte found no room (R16, R131). -/
theorem pushAll_rxOverrun :
    (pushAll bytes s).rxOverrun = (s.rxOverrun || decide (s.params.rxCap - s.rxBuf.length < bytes.length)) := by
  induction bytes generalizing s with
  | nil => simp
  | cons b bs ih =>
    rw [pushAll_cons, ih, rxPush_params]
    rcases rxPush_cases b s with ⟨h, e⟩ | ⟨h, e⟩
    · rw [State.rxFill_eq] at h
      simp only [e, State.report_rxOverrun, State.setRxBuf_rxOverrun, State.report_rxBuf, State.setRxBuf_rxBuf,
        List.length_append, List.length_cons, List.length_nil]
      congr 1; simp only [decide_eq_decide]; omega
    · rw [State.rxFill_eq] at h
      have : s.params.rxCap - s.rxBuf.length < bs.length + 1 := by omega
      simp [e, this]

end PushAll

/-- With room for all of them the bytes are all stored and accepted, and nothing else changes (R25, R78). -/
theorem pushAll_fits {bytes : List Byte} {s : State} (h : s.rxBuf.length + bytes.length ≤ s.params.rxCap) :
    pushAll bytes s = { s with rxBuf := s.rxBuf ++ bytes,
                               outputs := List.replicate bytes.length (.pushed true) ++ s.outputs } := by
  induction bytes generalizing s with
  | nil => simp
  | cons b bs ih =>
    simp only [List.length_cons] at h
    have hroom : s.rxFill < s.params.rxCap := by rw [State.rxFill_eq]; omega
    rcases rxPush_cases b s with ⟨-, e⟩ | ⟨h', -⟩
    · rw [pushAll_cons, e, ih (by simp; omega)]
      have : List.replicate bs.length (Output.pushed true) ++ Output.pushed true :: s.outputs =
          List.replicate (bs.length + 1) (Output.pushed true) ++ s.outputs := by
        rw [List.replicate_succ']; simp
      simp [State.report, State.setRxBuf, this]
    · omega

/-! `tryExtract`. -/

/-- The tests of R80 behind the first start byte, as a match on the bytes that follow it. -/
def judge (s : Nat) : List Byte → Verdict
  | [] => needMore
  | [cmd] => if isKnown cmd then needMore else invalidFrame .badCommand
  | cmd :: len :: tail =>
    if isKnown cmd then
      match tail.drop len.toNat with
      | hi :: lo :: stop :: _ =>
        if fromBytes hi lo ≠ checksum (tail.take len.toNat) then invalidFrame .badChecksum
        else if stop ≠ STOP then invalidFrame .badStop
        else okFrame s cmd len (tail.take len.toNat)
      | _ => needMore
    else invalidFrame .badCommand

/-- `judge` on a whole candidate: its checksum pair (R86), its stop byte (R87), success (R88). -/
theorem judge_whole (n : Nat) (cmd len hi lo stop : Byte) (payload rest : List Byte) (hk : isKnown cmd = true)
    (hl : payload.length = len.toNat) :
    judge n (cmd :: len :: (payload ++ hi :: lo :: stop :: rest)) =
      if fromBytes hi lo ≠ checksum payload then invalidFrame .badChecksum
      else if stop ≠ STOP then invalidFrame .badStop
      else okFrame n cmd len payload := by
  simp [judge, hk, ← hl]

theorem findStart_none {m : Memory} (h : START ∉ m) : findStart m = none := by
  simp only [findStart, List.findIdx?_eq_none_iff, decide_eq_false_iff_not]
  rintro x hx rfl; exact h hx

theorem findStart_junk {junk rest : List Byte} (h : START ∉ junk) :
    findStart (junk ++ START :: rest) = some junk.length := by
  have : List.findIdx? (fun b => decide (b = START)) junk = none := findStart_none h
  simp [findStart, List.findIdx?_append, this, List.findIdx?_cons]

/-- A read behind the start byte is a read of the bytes that follow it. -/
theorem read_behind (junk rest : List Byte) (i : Nat) :
    Memory.read (junk ++ START :: rest) (junk.length + (i + 1)) =
      match rest[i]? with
      | some b => .ok b
      | none => .error (.noSuchCell (junk.length + (i + 1))) := by
  rw [Memory.read, List.getElem?_append_right (by omega)]
  cases h : rest[i]? <;> simp [h]

theorem read_behind_some {junk rest : List Byte} {i : Nat} {b : Byte} (h : rest[i]? = some b) :
    Memory.read (junk ++ START :: rest) (junk.length + (i + 1)) = .ok b := by
  rw [read_behind, h]

/-- Behind the first start byte `tryExtract` reads only bytes that exist, and answers what `judge` says (R27, R80). -/
theorem checkCommand_eq (junk rest : List Byte) :
    checkCommand (junk ++ START :: rest) junk.length = .ok (judge junk.length rest) := by
  match rest with
  | [] => simp [checkCommand, judge]
  | [cmd] =>
    have h1 := read_behind_some (junk := junk) (rest := [cmd]) (i := 0) rfl
    by_cases hk : isKnown cmd = true <;> simp [checkCommand, checkLength, judge, h1, hk]
  | cmd :: len :: tail =>
    have h1 := read_behind_some (junk := junk) (rest := cmd :: len :: tail) (i := 0) rfl
    have h2 := read_behind_some (junk := junk) (rest := cmd :: len :: tail) (i := 1) rfl
    by_cases hk : isKnown cmd = true
    · by_cases hlen : tail.length < len.toNat + 3
      · -- the whole-frame test fails (R85)
        have hd : (tail.drop len.toNat).length < 3 := by simp; omega
        have hj : judge junk.length (cmd :: len :: tail) = needMore := by
          simp only [judge, hk, if_true]
          split
          · rename_i e; rw [e] at hd; simp at hd; omega
          · rfl
        rw [hj]
        have : (junk ++ START :: cmd :: len :: tail).length < junk.length + len.toNat + 6 := by simp; omega
        simp only [checkCommand, checkLength, h1, hk, h2]
        simp only [this, if_true]
        simp
      · -- the whole frame is there: the checksum pair (R86) and the stop byte (R87)
        obtain ⟨hi, lo, stop, more, hd⟩ : ∃ hi lo stop more, tail.drop len.toNat = hi :: lo :: stop :: more := by
          have : 3 ≤ (tail.drop len.toNat).length := by simp; omega
          match h : tail.drop len.toNat with
          | hi :: lo :: stop :: more => exact ⟨hi, lo, stop, more, rfl⟩
          | [] | [_] | [_, _] => rw [h] at this; simp at this
        have at3 : (cmd :: len :: tail)[len.toNat + 2]? = some hi := by
          have := congrArg (·[0]?) hd
          simpa [List.getElem?_drop] using this
        have at4 : (cmd :: len :: tail)[len.toNat + 3]? = some lo := by
          have := congrArg (·[1]?) hd
          simpa [List.getElem?_drop] using this
        have at5 : (cmd :: len :: tail)[len.toNat + 4]? = some stop := by
          have := congrArg (·[2]?) hd
          simpa [List.getElem?_drop] using this
        have r3 := read_behind_some (junk := junk) at3
        have r4 := read_behind_some (junk := junk) at4
        have r5 := read_behind_some (junk := junk) at5
        rw [show junk.length + (len.toNat + 2 + 1) = junk.length + 3 + len.toNat by omega] at r3
        rw [show junk.length + (len.toNat + 3 + 1) = junk.length + 4 + len.toNat by omega] at r4
        rw [show junk.length + (len.toNat + 4 + 1) = junk.length + 5 + len.toNat by omega] at r5
        have hwhole : ¬ (junk ++ START :: cmd :: len :: tail).length < junk.length + len.toNat + 6 := by
          simp; omega
        have hregion : Memory.readSeq (junk ++ START :: cmd :: len :: tail) (junk.length + 3) len.toNat =
            .ok (tail.take len.toNat) := by
          rw [Memory.readSeq_ok (by simp; omega)]
          congr 2
          simp [List.drop_append]
        have hpair : fromBytes hi lo ≠ checksum (tail.take len.toNat) ↔
            hi ≠ hiByte (checksum (tail.take len.toNat)) ∨ lo ≠ loByte (checksum (tail.take len.toNat)) := by
          rw [Ne, fromBytes_eq_iff]; tauto
        have h3 : ¬ (junk ++ START :: cmd :: len :: tail).length < junk.length + 3 := by simp
        have h2' : ¬ (junk ++ START :: cmd :: len :: tail).length < junk.length + 2 := by simp
        simp only [checkCommand, h2', if_false, h1, hk, checkLength, h3, h2, hwhole, hregion, checkChecksum, r3, r4,
          checkStop, r5, judge, hd, if_true, hpair]
        simp only [reduceCtorEq, if_false]
        split <;> [rfl; (split <;> rfl)]
    · simp [checkCommand, judge, h1, hk]

/-- With no start byte the answer is `NeedMoreData` (R81). -/
theorem tryExtract_no_start {m : Memory} (h : START ∉ m) : tryExtract m = .ok needMore := by
  simp [tryExtract, findStart_none h]

/-- With a start byte, junk before it, the answer is `judge`'s on the bytes behind it (R80). -/
theorem tryExtract_junk {junk rest : List Byte} (h : START ∉ junk) :
    tryExtract (junk ++ START :: rest) = .ok (judge junk.length rest) := by
  simp [tryExtract, findStart_junk h, checkCommand_eq]

/-- A buffer holds no start byte, or splits at its first one. -/
theorem start_split (m : Memory) :
    START ∉ m ∨ ∃ junk rest, START ∉ junk ∧ m = junk ++ START :: rest := by
  by_cases h : START ∈ m
  · right
    obtain ⟨junk, rest, e, hj⟩ := List.eq_append_cons_of_mem h
    exact ⟨junk, rest, hj, e⟩
  · exact .inl h

/-! The end of an attempt. -/

/-- Everything an attempt can do with its verdict (R79, R89, R90, R91). -/
theorem concludeAttempt_cases (v : Verdict) (s : State) :
    (v.status = .ok ∧
      concludeAttempt v s = (s.setRxBuf (s.rxBuf.drop v.consumed)).report (.attempted v false)) ∨
    (v.status ≠ .ok ∧ s.params.rxCeiling < s.rxBuf.length ∧
      concludeAttempt v s = (s.setRxBuf []).report (.attempted v true)) ∨
    (v.status ≠ .ok ∧ s.rxBuf.length ≤ s.params.rxCeiling ∧
      concludeAttempt v s = s.report (.attempted v false)) := by
  unfold concludeAttempt
  split
  · rename_i h; exact .inl ⟨h, rfl⟩
  · rename_i h
    split
    · rename_i ho; exact .inr (.inl ⟨h, State.overCeiling_iff.mp ho, rfl⟩)
    · rename_i ho
      rw [State.overCeiling_iff, State.rxFill_eq] at ho
      exact .inr (.inr ⟨h, by omega, rfl⟩)

section Conclude
variable (v : Verdict) (s : State)

@[simp] theorem concludeAttempt_params : (concludeAttempt v s).params = s.params := by
  rcases concludeAttempt_cases v s with ⟨-, e⟩ | ⟨-, -, e⟩ | ⟨-, -, e⟩ <;> rw [e] <;> rfl
@[simp] theorem concludeAttempt_chkAcc : (concludeAttempt v s).chkAcc = s.chkAcc := by
  rcases concludeAttempt_cases v s with ⟨-, e⟩ | ⟨-, -, e⟩ | ⟨-, -, e⟩ <;> rw [e] <;> rfl
@[simp] theorem concludeAttempt_rxOverrun : (concludeAttempt v s).rxOverrun = s.rxOverrun := by
  rcases concludeAttempt_cases v s with ⟨-, e⟩ | ⟨-, -, e⟩ | ⟨-, -, e⟩ <;> rw [e] <;> rfl
@[simp] theorem concludeAttempt_requests : (concludeAttempt v s).requests = s.requests := by
  rcases concludeAttempt_cases v s with ⟨-, e⟩ | ⟨-, -, e⟩ | ⟨-, -, e⟩ <;> rw [e] <;> rfl
@[simp] theorem concludeAttempt_sink : (concludeAttempt v s).sink = s.sink := by
  rcases concludeAttempt_cases v s with ⟨-, e⟩ | ⟨-, -, e⟩ | ⟨-, -, e⟩ <;> rw [e] <;> rfl

end Conclude

/-- An attempt whose buffer has a verdict ends as `concludeAttempt` says. -/
theorem rxAttempt_of_verdict {v : Verdict} {s : State} (h : tryExtract s.rxBuf = .ok v) :
    rxAttempt s = .next (concludeAttempt v s) := by
  simp [rxAttempt, h]

/-- An attempt that answers a next state had a verdict and ended as it says. -/
theorem rxAttempt_next {s t : State} (h : rxAttempt s = .next t) :
    ∃ v, tryExtract s.rxBuf = .ok v ∧ t = concludeAttempt v s := by
  unfold rxAttempt at h
  split at h
  · cases h
  · rename_i v hv; cases h; exact ⟨v, hv, rfl⟩

/-- A chunk with room for all its bytes is an attempt on the buffer with the bytes behind it (R56, R98). -/
theorem rxChunk_fits {bytes : List Byte} {s : State} (h : s.rxBuf.length + bytes.length ≤ s.params.rxCap) :
    rxChunk bytes s = rxAttempt { s with rxBuf := s.rxBuf ++ bytes,
                                         outputs := List.replicate bytes.length (.pushed true) ++ s.outputs } := by
  rw [rxChunk, pushAll_fits h]

end Sys2Proof.Machine
end

