-- ==== Sys2Proof/Laws/Exec.lean ====
section
/-!
SUPPORT. `exec` and `step` from outside: the seven operations and the frame kinds as equations, serving a request (R35),
and the logs of outputs.
-/
namespace Sys2Proof.Machine

/-- A frame kind of the table is executed as its bytes arriving in one chunk (R100, R56). -/
theorem exec_frameKind {k : Byte} {f : FrameBody} {i : Instr} (h : frameKind k f = some i) (s : State) :
    exec i s = rxChunk (frameBytes k f) s := by
  have hk := known_of_frameKind h
  rcases isKnown_cases k hk with rfl | rfl | rfl | rfl | rfl | rfl | rfl | rfl | rfl | rfl | rfl | rfl | rfl | rfl |
    rfl | rfl | rfl | rfl | rfl | rfl | rfl | rfl <;> cases h <;> rfl

/-- `exec` of an operation, as an equation. -/
theorem exec_rxPush (b : Byte) (s : State) : exec (.rxPush b) s = .next (rxPush b s) := rfl
theorem exec_rxAttempt (s : State) : exec .rxAttempt s = rxAttempt s := rfl
theorem exec_chkByte (b : Byte) (s : State) :
    exec (.chkByte b) s = .next ((s.setChkAcc (chkStep s.chkAcc b)).report .nothing) := rfl

/-- A step of a legal block with a request issued serves the oldest (R35). -/
theorem step_serves {s : State} {r : Request} {rs : List Request} (hp : s.params.legal = true)
    (h : s.requests = r :: rs) : step s = serve r (s.setRequests rs) := by
  simp [step, hp, serveNext, takeRequest_cons h]

/-- A step that answers a next state was of a legal block: it idled, or served its oldest request. -/
theorem step_next {s t : State} (h : step s = .next t) :
    s.params.legal = true ∧
      ((s.requests = [] ∧ t = s) ∨ ∃ r rs, s.requests = r :: rs ∧ serve r (s.setRequests rs) = .next t) := by
  unfold step at h
  split at h
  · rename_i hp
    refine ⟨hp, ?_⟩
    match hr : s.requests with
    | [] => left; simp [serveNext, takeRequest_nil hr] at h; exact ⟨rfl, h.symm⟩
    | r :: rs => right; simp [serveNext, takeRequest_cons hr] at h; exact ⟨r, rs, rfl, h⟩
  · cases h

/-- A script of two parts is the first, then the second (R35). -/
theorem execAll_append (is js : List Instr) (s t : State) (h : execAll is s = .next t) :
    execAll (is ++ js) s = execAll js t := by
  induction is generalizing s with
  | nil => cases h; rfl
  | cons i is ih =>
    simp only [execAll, List.cons_append] at h ⊢
    split at h
    · exact ih _ h
    · cases h
    · cases h

/-- Single pushes of a script are a run of pushes (R77). -/
theorem execAll_pushes (p : List Byte) (s : State) : execAll (p.map .rxPush) s = .next (pushAll p s) := by
  induction p generalizing s with
  | nil => rfl
  | cons b p ih => simp only [List.map_cons, execAll, exec_rxPush, ih]; rfl

/-- The bytes of an emitted frame (R67). -/
theorem encFrame_eq (cmd : Byte) (p : List Byte) :
    encFrame cmd p = 0x78#8 :: cmd :: BitVec.ofNat 8 p.length ::
      (p ++ [hiByte (checksum p), loByte (checksum p), 0x79#8]) := rfl

/-- `afterAttempt` is what the machine's attempt leaves. -/
theorem concludeAttempt_eq_afterAttempt (v : Verdict) (s : State) : concludeAttempt v s = s.afterAttempt v := by
  unfold State.afterAttempt
  rcases concludeAttempt_cases v s with ⟨hv, e⟩ | ⟨hv, ho, e⟩ | ⟨hv, ho, e⟩
  · rw [e, if_pos hv]; rfl
  · rw [e, if_neg hv, if_pos ho]; rfl
  · rw [e, if_neg hv, if_neg (by omega)]; rfl

/-- One more record adds its sink bytes at the end (R72). -/
theorem sinkOf_cons (o : Output) (os : List Output) : sinkOf (o :: os) = sinkOf os ++ o.sinkBytes := by
  simp [sinkOf]

/-- Records of pushes add nothing to the sink. -/
theorem sinkOf_replicate_pushed (n : Nat) (b : Bool) (os : List Output) :
    sinkOf (List.replicate n (.pushed b) ++ os) = sinkOf os := by
  induction n with
  | zero => rfl
  | succ n ih => rw [List.replicate_succ, List.cons_append, sinkOf_cons, ih]; simp [Output.sinkBytes]

end Sys2Proof.Machine
end

