-- ==== Sys2Proof/Laws/PerInstr.lean ====
section
/-!
SUPPORT. Statements made per instruction, one lemma per constructor: the form an instruction's encoding has.
-/
namespace Sys2Proof.Laws.EncodedForm

/-- A well-formed instruction encodes to a chunk that starts with `0x78`, a recognised code and a length byte that counts
what follows (`L + 6` bytes, R40, R43), or to a command-port word that does not carry the reserved number (R53). -/
def Statement (i : Instr) : Prop :=
  i.wellFormed = true →
    match encode i with
    | .chunk bytes =>
      ∃ cmd len tail, bytes = START :: cmd :: len :: tail ∧ isKnown cmd = true ∧ tail.length = len.toNat + 3
    | .port w => w.op ≠ 6

/-- The form of a recognised code's frame. -/
theorem frame_form (cmd : Byte) (f : FrameBody) (hk : isKnown cmd = true) (hf : f.wellFormed = true) :
    ∃ c len tail, frameBytes cmd f = START :: c :: len :: tail ∧ isKnown c = true ∧ tail.length = len.toNat + 3 :=
  ⟨cmd, _, _, rfl, hk, by simp [lengthByte_toNat (FrameBody.wellFormed_iff.mp hf)]⟩

theorem reset (f : FrameBody) : Statement (.reset f) := fun h => frame_form _ f (by decide) h
theorem requestVersion (f : FrameBody) : Statement (.requestVersion f) := fun h => frame_form _ f (by decide) h
theorem getSetting (f : FrameBody) : Statement (.getSetting f) := fun h => frame_form _ f (by decide) h
theorem updateSetting (f : FrameBody) : Statement (.updateSetting f) := fun h => frame_form _ f (by decide) h
theorem ping (f : FrameBody) : Statement (.ping f) := fun h => frame_form _ f (by decide) h
theorem setSerialNumber (f : FrameBody) : Statement (.setSerialNumber f) := fun h => frame_form _ f (by decide) h
theorem syncTime (f : FrameBody) : Statement (.syncTime f) := fun h => frame_form _ f (by decide) h
theorem getRealTime (f : FrameBody) : Statement (.getRealTime f) := fun h => frame_form _ f (by decide) h
theorem resetDefault (f : FrameBody) : Statement (.resetDefault f) := fun h => frame_form _ f (by decide) h
theorem changeVolume (f : FrameBody) : Statement (.changeVolume f) := fun h => frame_form _ f (by decide) h
theorem pushColor (f : FrameBody) : Statement (.pushColor f) := fun h => frame_form _ f (by decide) h
theorem mixColor (f : FrameBody) : Statement (.mixColor f) := fun h => frame_form _ f (by decide) h
theorem controlIo (f : FrameBody) : Statement (.controlIo f) := fun h => frame_form _ f (by decide) h
theorem calibration (f : FrameBody) : Statement (.calibration f) := fun h => frame_form _ f (by decide) h
theorem doorControl (f : FrameBody) : Statement (.doorControl f) := fun h => frame_form _ f (by decide) h
theorem setExpireUsageTime (f : FrameBody) : Statement (.setExpireUsageTime f) := fun h => frame_form _ f (by decide) h
theorem getExpireUsageTime (f : FrameBody) : Statement (.getExpireUsageTime f) := fun h => frame_form _ f (by decide) h
theorem pushColorWithDirection (f : FrameBody) : Statement (.pushColorWithDirection f) := fun h => frame_form _ f (by decide) h
theorem deviceError (f : FrameBody) : Statement (.deviceError f) := fun h => frame_form _ f (by decide) h
theorem inputStatus (f : FrameBody) : Statement (.inputStatus f) := fun h => frame_form _ f (by decide) h
theorem machineStatus (f : FrameBody) : Statement (.machineStatus f) := fun h => frame_form _ f (by decide) h
theorem pipelineStatus (f : FrameBody) : Statement (.pipelineStatus f) := fun h => frame_form _ f (by decide) h
theorem chkClear : Statement .chkClear := fun _ => (by decide : (0 : BitVec 3) ≠ 6)
theorem chkByte (b : Byte) : Statement (.chkByte b) := fun _ => (by decide : (1 : BitVec 3) ≠ 6)
theorem chkRead : Statement .chkRead := fun _ => (by decide : (2 : BitVec 3) ≠ 6)
theorem enc (cmd : Byte) (p : List Byte) : Statement (.enc cmd p) := fun _ => (by decide : (3 : BitVec 3) ≠ 6)
theorem rxPush (b : Byte) : Statement (.rxPush b) := fun _ => (by decide : (4 : BitVec 3) ≠ 6)
theorem rxAttempt : Statement .rxAttempt := fun _ => (by decide : (5 : BitVec 3) ≠ 6)
theorem blockReset : Statement .blockReset := fun _ => (by decide : (7 : BitVec 3) ≠ 6)

end Sys2Proof.Laws.EncodedForm
end

