-- ==== Sys2Proof/Tests/Slice0.lean ====
section
/-!
SUPPORT. The model's own tests. Expected results come from the encoding tables and the test vectors of `spec/`
(`30_encoding.md`, `43_command_catalog.md`, `95_test_vectors.md`), and each statement with hypotheses has its witness.
-/
namespace Sys2Proof.Tests
open Sys2Proof Sys2Proof.Machine

/-! Helpers. -/

/-- What a request decodes to, as an option. -/
def decoded (r : Request) : Option Instr :=
  match decode r with
  | .ok i => some i
  | .error _ => none

/-- Why a request decodes to nothing. -/
def rejected (r : Request) : Option DecodeError :=
  match decode r with
  | .ok _ => none
  | .error e => some e

/-- A check of the state an outcome reaches. -/
def reaches (o : Host.Outcome State Fault Refusal) (p : State → Bool) : Bool :=
  match o with
  | .next t => p t
  | .fault _ => false
  | .refused _ => false

/-- The reset state with a buffer. -/
def holding (m : List Byte) : State := { State.reset with rxBuf := m }

/-- The reset state with small parameters and a buffer. -/
def small (ceiling cap : Nat) (m : List Byte) : State :=
  { State.reset with params := ⟨ceiling, cap⟩, rxBuf := m }

/-- The ping frame, V-SRC-01. -/
def ping5 : List Byte := [0x78#8, 0x05#8, 0x00#8, 0x00#8, 0x00#8, 0x79#8]

/-- The body of an empty good frame. -/
def empty79 : FrameBody := ⟨[], 0x00#8, 0x00#8, 0x79#8⟩

/-- The NeedMoreData and BadChecksum verdicts. -/
def nmd : Verdict := ⟨.needMoreData, .noReason, 0, none⟩
def badSum : Verdict := ⟨.invalid, .badChecksum, 0, none⟩

/-! Well-formedness: a payload the length byte cannot count is refused (R43). -/

theorem test_wf_refuses_256 : (Instr.ping ⟨List.replicate 256 0x00#8, 0x00#8, 0x00#8, 0x79#8⟩).wellFormed = false := by
  simp only [Instr.wellFormed, FrameBody.wellFormed, List.length_replicate]; decide
theorem test_wf_accepts_255 : (Instr.ping ⟨List.replicate 255 0x00#8, 0x00#8, 0x00#8, 0x79#8⟩).wellFormed = true := by
  simp only [Instr.wellFormed, FrameBody.wellFormed, List.length_replicate]; decide

/-! Decoding: each frame kind's example in `43_command_catalog.md`, byte by byte; each operation's number (R53). -/

/-- R101's example. -/
theorem test_decode_reset :
    decoded (.chunk [0x78#8, 0x01#8, 0x00#8, 0x00#8, 0x00#8, 0x79#8]) =
      some (.reset ⟨[], 0x00#8, 0x00#8, 0x79#8⟩) := by
  decide
/-- R102's example. -/
theorem test_decode_requestVersion :
    decoded (.chunk [0x78#8, 0x02#8, 0x00#8, 0x00#8, 0x00#8, 0x79#8]) =
      some (.requestVersion ⟨[], 0x00#8, 0x00#8, 0x79#8⟩) := by
  decide
/-- R103's example. -/
theorem test_decode_getSetting :
    decoded (.chunk [0x78#8, 0x03#8, 0x00#8, 0x00#8, 0x00#8, 0x79#8]) =
      some (.getSetting ⟨[], 0x00#8, 0x00#8, 0x79#8⟩) := by
  decide
/-- R104's example. -/
theorem test_decode_updateSetting :
    decoded (.chunk [0x78#8, 0x04#8, 0x00#8, 0x00#8, 0x00#8, 0x79#8]) =
      some (.updateSetting ⟨[], 0x00#8, 0x00#8, 0x79#8⟩) := by
  decide
/-- R105's example. -/
theorem test_decode_ping :
    decoded (.chunk [0x78#8, 0x05#8, 0x00#8, 0x00#8, 0x00#8, 0x79#8]) =
      some (.ping ⟨[], 0x00#8, 0x00#8, 0x79#8⟩) := by
  decide
/-- R106's example. -/
theorem test_decode_setSerialNumber :
    decoded (.chunk [0x78#8, 0x06#8, 0x00#8, 0x00#8, 0x00#8, 0x79#8]) =
      some (.setSerialNumber ⟨[], 0x00#8, 0x00#8, 0x79#8⟩) := by
  decide
/-- R107's example. -/
theorem test_decode_syncTime :
    decoded (.chunk [0x78#8, 0x07#8, 0x07#8, 0x07#8, 0xEA#8, 0x0B#8, 0x0A#8, 0x0C#8, 0x22#8, 0x38#8, 0x01#8, 0x6C#8, 0x79#8]) =
      some (.syncTime ⟨[0x07#8, 0xEA#8, 0x0B#8, 0x0A#8, 0x0C#8, 0x22#8, 0x38#8], 0x01#8, 0x6C#8, 0x79#8⟩) := by
  decide
/-- R108's example. -/
theorem test_decode_getRealTime :
    decoded (.chunk [0x78#8, 0x08#8, 0x00#8, 0x00#8, 0x00#8, 0x79#8]) =
      some (.getRealTime ⟨[], 0x00#8, 0x00#8, 0x79#8⟩) := by
  decide
/-- R109's example. -/
theorem test_decode_resetDefault :
    decoded (.chunk [0x78#8, 0x09#8, 0x00#8, 0x00#8, 0x00#8, 0x79#8]) =
      some (.resetDefault ⟨[], 0x00#8, 0x00#8, 0x79#8⟩) := by
  decide
/-- R110's example. -/
theorem test_decode_changeVolume :
    decoded (.chunk [0x78#8, 0x10#8, 0x05#8, 0x01#8, 0x44#8, 0x7A#8, 0x00#8, 0x00#8, 0x00#8, 0xBF#8, 0x79#8]) =
      some (.changeVolume ⟨[0x01#8, 0x44#8, 0x7A#8, 0x00#8, 0x00#8], 0x00#8, 0xBF#8, 0x79#8⟩) := by
  decide
/-- R111's example. -/
theorem test_decode_pushColor :
    decoded (.chunk [0x78#8, 0x11#8, 0x02#8, 0x78#8, 0x79#8, 0x00#8, 0xF1#8, 0x79#8]) =
      some (.pushColor ⟨[0x78#8, 0x79#8], 0x00#8, 0xF1#8, 0x79#8⟩) := by
  decide
/-- R112's example. -/
theorem test_decode_mixColor :
    decoded (.chunk [0x78#8, 0x12#8, 0x00#8, 0x00#8, 0x00#8, 0x79#8]) =
      some (.mixColor ⟨[], 0x00#8, 0x00#8, 0x79#8⟩) := by
  decide
/-- R113's example. -/
theorem test_decode_controlIo :
    decoded (.chunk [0x78#8, 0x13#8, 0x00#8, 0x00#8, 0x00#8, 0x79#8]) =
      some (.controlIo ⟨[], 0x00#8, 0x00#8, 0x79#8⟩) := by
  decide
/-- R114's example. -/
theorem test_decode_calibration :
    decoded (.chunk [0x78#8, 0x14#8, 0x00#8, 0x00#8, 0x00#8, 0x79#8]) =
      some (.calibration ⟨[], 0x00#8, 0x00#8, 0x79#8⟩) := by
  decide
/-- R115's example. -/
theorem test_decode_doorControl :
    decoded (.chunk [0x78#8, 0x15#8, 0x00#8, 0x00#8, 0x00#8, 0x79#8]) =
      some (.doorControl ⟨[], 0x00#8, 0x00#8, 0x79#8⟩) := by
  decide
/-- R116's example. -/
theorem test_decode_setExpireUsageTime :
    decoded (.chunk [0x78#8, 0x16#8, 0x00#8, 0x00#8, 0x00#8, 0x79#8]) =
      some (.setExpireUsageTime ⟨[], 0x00#8, 0x00#8, 0x79#8⟩) := by
  decide
/-- R117's example. -/
theorem test_decode_getExpireUsageTime :
    decoded (.chunk [0x78#8, 0x17#8, 0x00#8, 0x00#8, 0x00#8, 0x79#8]) =
      some (.getExpireUsageTime ⟨[], 0x00#8, 0x00#8, 0x79#8⟩) := by
  decide
/-- R118's example. -/
theorem test_decode_pushColorWithDirection :
    decoded (.chunk [0x78#8, 0x19#8, 0x00#8, 0x00#8, 0x00#8, 0x79#8]) =
      some (.pushColorWithDirection ⟨[], 0x00#8, 0x00#8, 0x79#8⟩) := by
  decide
/-- R119's example. -/
theorem test_decode_deviceError :
    decoded (.chunk [0x78#8, 0x30#8, 0x00#8, 0x00#8, 0x00#8, 0x79#8]) =
      some (.deviceError ⟨[], 0x00#8, 0x00#8, 0x79#8⟩) := by
  decide
/-- R120's example. -/
theorem test_decode_inputStatus :
    decoded (.chunk [0x78#8, 0x31#8, 0x00#8, 0x00#8, 0x00#8, 0x79#8]) =
      some (.inputStatus ⟨[], 0x00#8, 0x00#8, 0x79#8⟩) := by
  decide
/-- R121's example. -/
theorem test_decode_machineStatus :
    decoded (.chunk [0x78#8, 0x32#8, 0x00#8, 0x00#8, 0x00#8, 0x79#8]) =
      some (.machineStatus ⟨[], 0x00#8, 0x00#8, 0x79#8⟩) := by
  decide
/-- R122's example. -/
theorem test_decode_pipelineStatus :
    decoded (.chunk [0x78#8, 0x33#8, 0x05#8, 0x02#8, 0x41#8, 0x20#8, 0x00#8, 0x00#8, 0x00#8, 0x63#8, 0x79#8]) =
      some (.pipelineStatus ⟨[0x02#8, 0x41#8, 0x20#8, 0x00#8, 0x00#8], 0x00#8, 0x63#8, 0x79#8⟩) := by
  decide
theorem test_decode_chkClear : decoded (.port ⟨0b000, 0x00#8, []⟩) = some .chkClear := by decide
theorem test_decode_chkByte : decoded (.port ⟨0b001, 0x44#8, []⟩) = some (.chkByte 0x44#8) := by decide
theorem test_decode_chkRead : decoded (.port ⟨0b010, 0x00#8, []⟩) = some .chkRead := by decide
theorem test_decode_enc : decoded (.port ⟨0b011, 0x10#8, [0x01#8, 0x02#8]⟩) = some (.enc 0x10#8 [0x01#8, 0x02#8]) := by decide
theorem test_decode_rxPush : decoded (.port ⟨0b100, 0x78#8, []⟩) = some (.rxPush 0x78#8) := by decide
theorem test_decode_rxAttempt : decoded (.port ⟨0b101, 0x00#8, []⟩) = some .rxAttempt := by decide
theorem test_decode_blockReset : decoded (.port ⟨0b111, 0x00#8, []⟩) = some .blockReset := by decide

/-! Refusals by name. -/

theorem test_reject_op6 : rejected (.port ⟨0b110, 0x00#8, []⟩) = some .reservedOp := by decide
theorem test_reject_short : rejected (.chunk [0x78#8, 0x05#8]) = some .shortHeader := by decide
theorem test_reject_no_start : rejected (.chunk [0x79#8, 0x05#8, 0x00#8]) = some .noStartByte := by decide
/-- V-ENC-09: `0x18` is no CommandId. -/
theorem test_reject_0x18 : rejected (.chunk [0x78#8, 0x18#8, 0x00#8, 0x00#8, 0x00#8, 0x79#8]) =
    some .unrecognisedCommand := by decide
/-- V-RX-04's third buffer. -/
theorem test_reject_incomplete : rejected (.chunk [0x78#8, 0x05#8, 0x00#8, 0x00#8, 0x00#8]) = some .incompleteFrame := by
  decide
theorem test_reject_trailing : rejected (.chunk (ping5 ++ [0x78#8])) = some .trailingBytes := by decide

/-! The opcode table's words, as `step`'s first instruction. -/

theorem test_table_word_ping : decodeTableWord 24 0x780500 = some (.ping ⟨[], 0x00#8, 0x00#8, 0x00#8⟩) := by decide
/-- The bytes behind the header are zero, so the stop byte is wrong: BadStop (V-RX-18's reason). -/
theorem test_step_runs_table_word : reaches (step (State.reset.withFetchWord 24 0x780500)) (fun t =>
    decide (t.outputs.head? = some (.attempted ⟨.invalid, .badStop, 0, none⟩ false))) = true := by decide
theorem test_step_runs_operation_word : reaches (step (State.reset.withFetchWord 8 2)) (fun t =>
    decide (t.outputs = [.chkValue 0x0000#16])) = true := by decide

/-! One step each, from the vectors of `95_test_vectors.md`. -/

/-- R64's example. -/
theorem test_chkClear : reaches (exec .chkClear { State.reset with chkAcc := 0x1234#16 }) (fun t =>
    decide (t.chkAcc = 0x0000#16)) = true := by decide
/-- V-CHK-12. -/
theorem test_chkByte_wraps : reaches (exec (.chkByte 0xFF#8) { State.reset with chkAcc := 0xFF80#16 }) (fun t =>
    decide (t.chkAcc = 0x007F#16)) = true := by decide
/-- V-CHK-04: bytes are zero-extended. -/
theorem test_chkByte_unsigned : reaches (exec (.chkByte 0xFF#8) State.reset) (fun t =>
    decide (t.chkAcc = 0x00FF#16)) = true := by decide
/-- V-CHK-11: reading does not clear. -/
theorem test_chkRead : reaches (exec .chkRead { State.reset with chkAcc := 0x0080#16 }) (fun t =>
    decide (t.outputs = [.chkValue 0x0080#16]) && decide (t.chkAcc = 0x0080#16)) = true := by decide
/-- V-ENC-05: the checksum pair is big-endian. -/
theorem test_enc_big_endian : reaches (exec (.enc 0x01#8 [0xFF#8, 0xFF#8, 0x02#8]) State.reset) (fun t =>
    decide (t.sink = [0x78#8, 0x01#8, 0x03#8, 0xFF#8, 0xFF#8, 0x02#8, 0x02#8, 0x00#8, 0x79#8])) = true := by decide
/-- V-ENC-08: 256 bytes are too long; V-ENC-12: where both refusals apply, the command's is reported. -/
theorem test_enc_refuses :
    (reaches (exec (.enc 0x05#8 (List.replicate 256 0x00#8)) State.reset) (fun t =>
      decide (t.outputs = [.encoded .encTooLong []]) && decide (t.sink = [])) = true) ∧
    (reaches (exec (.enc 0x18#8 (List.replicate 256 0x00#8)) State.reset) (fun t =>
      decide (t.outputs = [.encoded .encBadCommand []]) && decide (t.sink = [])) = true) :=
  ⟨by simp only [exec, execEnc, List.length_replicate]; decide, by simp only [exec, execEnc, List.length_replicate]; decide⟩
/-- R78's example. -/
theorem test_rxPush : reaches (exec (.rxPush 0x00#8) (holding [0x78#8, 0x05#8])) (fun t =>
    decide (t.rxBuf = [0x78#8, 0x05#8, 0x00#8]) && decide (t.outputs = [.pushed true])) = true := by decide
/-- V-OV-01's ninth push, at its capacity of 8. -/
theorem test_rxPush_overrun :
    reaches (exec (.rxPush 0x00#8) (small 4 8 (ping5 ++ [0x78#8, 0x05#8]))) (fun t =>
      decide (t.rxOverrun = true) && decide (t.rxBuf = ping5 ++ [0x78#8, 0x05#8]) &&
      decide (t.outputs = [.pushed false])) = true := by decide
/-- V-RX-13: the junk prefix goes with the frame. -/
theorem test_rxAttempt_junk : reaches (exec .rxAttempt (holding ([0xAA#8, 0x79#8] ++ ping5))) (fun t =>
    decide (t.rxBuf = []) && decide (t.outputs =
      [.attempted ⟨.ok, .noReason, 8, some ⟨2, 0x05#8, 0x00#8, []⟩⟩ false])) = true := by decide
/-- V-GD-02: the status reported is the one found before the flush. -/
theorem test_rxAttempt_flush :
    reaches (exec .rxAttempt (small 6 16 [0x78#8, 0x05#8, 0x00#8, 0x00#8, 0x01#8, 0x79#8, 0x00#8])) (fun t =>
      decide (t.rxBuf = []) && decide (t.outputs = [.attempted badSum true])) = true := by decide
/-- R141's example. -/
theorem test_blockReset :
    reaches (exec .blockReset { holding [0x78#8, 0x05#8, 0x00#8] with chkAcc := 0x00BF#16, rxOverrun := true }) (fun t =>
      decide (t.chkAcc = 0x0000#16) && decide (t.rxFill = 0) && decide (t.rxOverrun = false)) = true := by decide
/-- Program P1's frame, arriving whole: V-RX-05. -/
theorem test_ping_arrives : reaches (exec (.ping empty79) State.reset) (fun t =>
    decide (t.outputs.head? = some (.attempted ⟨.ok, .noReason, 6, some ⟨0, 0x05#8, 0x00#8, []⟩⟩ false))) = true := by
  decide
/-- V-RX-28: a one-bit error in the payload. -/
theorem test_changeVolume_corrupt :
    reaches (exec (.changeVolume ⟨[0x01#8, 0x44#8, 0x7A#8, 0x00#8, 0x01#8], 0x00#8, 0xBF#8, 0x79#8⟩) State.reset) (fun t =>
      decide (t.outputs.head? = some (.attempted badSum false))) = true := by decide
/-- V-RX-16: delimiter values inside the payload are stepped over. -/
theorem test_pushColor_delimiters :
    reaches (exec (.pushColor ⟨[0x78#8, 0x79#8], 0x00#8, 0xF1#8, 0x79#8⟩) State.reset) (fun t =>
      decide (t.outputs.head? =
        some (.attempted ⟨.ok, .noReason, 8, some ⟨0, 0x11#8, 0x02#8, [0x78#8, 0x79#8]⟩⟩ false))) = true := by decide
/-- Program P3's second line: a good frame behind an Invalid one is not delivered. -/
theorem test_ping_stalled :
    reaches (exec (.ping empty79) (small 16 64 [0x78#8, 0x05#8, 0x00#8, 0x00#8, 0x01#8, 0x79#8])) (fun t =>
      decide (t.outputs.head? = some (.attempted badSum false)) && decide (t.rxFill = 12)) = true := by decide

/-! Witnesses: for each statement with hypotheses, a state and operands that meet them together; where it has several
clauses, one for each, at a boundary. -/

theorem witness_DecodeOfEncodeIsTheInstruction :
    (Instr.pipelineStatus ⟨List.replicate 255 0x78#8, 0xFF#8, 0xFF#8, 0x00#8⟩).wellFormed = true := by
  simp only [Instr.wellFormed, FrameBody.wellFormed, List.length_replicate]; decide
theorem witness_DecodedChunkIsItsOwnEncoding : decode (.chunk ping5) = .ok (.ping empty79) := rfl
theorem witness_KnownSetNamesAndClasses : isKnown 0x18#8 = false ∧ isKnown 0x00#8 = false ∧ isKnown 0x34#8 = false := by
  decide
theorem witness_HeaderWordSelectsItsRow : isKnown 0x01#8 = true ∧ isKnown 0x33#8 = true := by decide
theorem witness_ChecksumArithmeticLaws :
    (List.replicate 255 0xFF#8).length ≤ 255 ∧ [0x12#8, 0x34#8].Perm [0x34#8, 0x12#8] :=
  ⟨(List.length_replicate ..).le, by decide⟩
theorem witness_EncResult : isKnown 0x18#8 = false ∧ isKnown 0x05#8 = true ∧
    255 < (List.replicate 256 0x00#8).length ∧ ¬ 255 < (List.replicate 255 0x00#8).length := 
  ⟨rfl, rfl, by rw [List.length_replicate]; decide, by rw [List.length_replicate]; decide⟩
theorem witness_EmittedFrameIsWellFormed : ∃ t, exec (.enc 0x05#8 []) State.reset = .next t ∧
    t.outputs = .encoded .noError ping5 :: State.reset.outputs := ⟨_, rfl, rfl⟩
theorem witness_EveryCommandIsTreatedAlike : isKnown 0x05#8 = true ∧ isKnown 0x33#8 = true ∧
    (List.replicate 255 0xFF#8).length ≤ 255 ∧ (0x78#8 : Byte) ∉ [0xAA#8, 0x79#8] ∧
    ([] : List Byte).length = (0x00#8 : Byte).toNat ∧
    (holding ([0xAA#8, 0x79#8] ++ ping5)).rxBuf = [0xAA#8, 0x79#8] ++ 0x78#8 :: 0x05#8 :: 0x00#8 ::
      ([] ++ hiByte (checksum []) :: loByte (checksum []) :: 0x79#8 :: []) :=
  ⟨rfl, rfl, (List.length_replicate ..).le, by decide, rfl, rfl⟩
theorem witness_RxPushResult : (small 4 8 (List.replicate 7 0x00#8)).rxBuf.length < 8 ∧
    ¬ (small 4 8 (List.replicate 8 0x00#8)).rxBuf.length < 8 := by decide
theorem witness_RxPushWritesOneCell :
    (small 4 8 (List.replicate 7 0x00#8)).rxFill < (small 4 8 (List.replicate 7 0x00#8)).params.rxCap := by decide
theorem witness_AttemptScansForTheFirstStart : (0x78#8 : Byte) ∉ (holding [0x00#8, 0x01#8, 0x02#8, 0x79#8]).rxBuf ∧
    findStart [0x00#8, 0x78#8, 0x78#8] = some 1 := by decide
theorem witness_AttemptWaitsForTheCommand :
    (0x78#8 : Byte) ∉ [0x00#8] ∧ (holding [0x00#8, 0x78#8]).rxBuf = [0x00#8] ++ [0x78#8] := by decide
/-- V-RX-32: the junk is one byte, the command the second start byte. -/
theorem witness_AttemptRejectsUnknownCommand : (0x78#8 : Byte) ∉ [0x00#8] ∧ isKnown 0x78#8 = false ∧
    (holding ([0x00#8, 0x78#8] ++ ping5)).rxBuf = [0x00#8] ++ 0x78#8 :: 0x78#8 :: ping5.tail := by decide
theorem witness_AttemptWaitsForTheLength : (0x78#8 : Byte) ∉ ([] : List Byte) ∧ isKnown 0x19#8 = true ∧
    (holding [0x78#8, 0x19#8]).rxBuf = [] ++ [0x78#8, 0x19#8] := by decide
/-- V-RX-10: only the stop byte is missing. -/
theorem witness_AttemptWaitsForTheWholeFrame : (0x78#8 : Byte) ∉ ([] : List Byte) ∧ isKnown 0x10#8 = true ∧
    (holding [0x78#8, 0x10#8, 0x05#8, 0x01#8, 0x44#8, 0x7A#8, 0x00#8, 0x00#8, 0x00#8, 0xBF#8]).rxBuf =
      [] ++ 0x78#8 :: 0x10#8 :: 0x05#8 :: [0x01#8, 0x44#8, 0x7A#8, 0x00#8, 0x00#8, 0x00#8, 0xBF#8] ∧
    (holding [0x78#8, 0x10#8, 0x05#8, 0x01#8, 0x44#8, 0x7A#8, 0x00#8, 0x00#8, 0x00#8, 0xBF#8]).rxBuf.length <
      ([] : List Byte).length + (0x05#8 : Byte).toNat + 6 := by decide
/-- V-RX-19 (low byte) and V-RX-15 (high byte). -/
theorem witness_AttemptRejectsBadChecksum : (0x78#8 : Byte) ∉ ([] : List Byte) ∧ isKnown 0x05#8 = true ∧
    ([] : List Byte).length = (0x00#8 : Byte).toNat ∧
    (holding [0x78#8, 0x05#8, 0x00#8, 0x00#8, 0x01#8, 0x00#8]).rxBuf =
      [] ++ 0x78#8 :: 0x05#8 :: 0x00#8 :: ([] ++ 0x00#8 :: 0x01#8 :: 0x00#8 :: []) ∧
    (0x01#8 : Byte) ≠ loByte (checksum []) ∧ (0x01#8 : Byte) ≠ hiByte (checksum []) := by decide
/-- V-RX-18. -/
theorem witness_AttemptRejectsBadStop : (0x78#8 : Byte) ∉ ([] : List Byte) ∧ isKnown 0x05#8 = true ∧
    ([] : List Byte).length = (0x00#8 : Byte).toNat ∧
    (holding [0x78#8, 0x05#8, 0x00#8, 0x00#8, 0x00#8, 0x78#8]).rxBuf = [] ++ 0x78#8 :: 0x05#8 :: 0x00#8 ::
      ([] ++ hiByte (checksum []) :: loByte (checksum []) :: 0x78#8 :: []) ∧ (0x78#8 : Byte) ≠ 0x79#8 := by decide
/-- V-RX-12, with V-RX-13's junk. -/
theorem witness_AttemptHandsOutAGoodFrame : (0x78#8 : Byte) ∉ [0xAA#8, 0x79#8] ∧ isKnown 0x05#8 = true ∧
    ([] : List Byte).length = (0x00#8 : Byte).toNat ∧
    (holding ([0xAA#8, 0x79#8] ++ ping5 ++ [0x78#8])).rxBuf = [0xAA#8, 0x79#8] ++ 0x78#8 :: 0x05#8 :: 0x00#8 ::
      ([] ++ hiByte (checksum []) :: loByte (checksum []) :: 0x79#8 :: [0x78#8]) := by decide
theorem witness_HandedOutFrameStoodInTheBuffer : ∃ t v fr, exec .rxAttempt (holding ping5) = .next t ∧
    t.outputs = .attempted v false :: (holding ping5).outputs ∧ v.frame = some fr := ⟨_, _, _, rfl, rfl, rfl⟩
/-- V-GD-03 at the ceiling and one byte over it, and V-GD-04's Ok over the ceiling. -/
theorem witness_FlushExactlyOverTheCeiling :
    tryExtract (small 4 16 [0x01#8, 0x02#8, 0x03#8, 0x04#8]).rxBuf = .ok nmd ∧ nmd.status ≠ .ok ∧
    (small 4 16 [0x01#8, 0x02#8, 0x03#8, 0x04#8]).rxFill ≤ 4 ∧
    tryExtract (small 4 16 [0x01#8, 0x02#8, 0x03#8, 0x04#8, 0x05#8]).rxBuf = .ok nmd ∧
    4 < (small 4 16 [0x01#8, 0x02#8, 0x03#8, 0x04#8, 0x05#8]).rxFill ∧
    (∃ v, tryExtract (small 4 32 ping5).rxBuf = .ok v ∧ v.status = .ok) :=
  ⟨rfl, by decide, by decide, rfl, by decide, _, rfl, rfl⟩
theorem witness_FruitlessAttemptIsIdempotent : ∃ t, exec .rxAttempt (holding [0x78#8]) = .next t ∧
    t.outputs = .attempted nmd false :: (holding [0x78#8]).outputs ∧ nmd.status ≠ .ok := ⟨_, rfl, rfl, by decide⟩
/-- V-RX-14 (Invalid) and V-RX-05 (Ok). -/
theorem witness_VerdictIsStableUnderExtension :
    tryExtract [0x78#8, 0x05#8, 0x00#8, 0x00#8, 0x01#8, 0x79#8] = .ok badSum ∧ badSum.status ≠ .needMoreData ∧
    (∃ v, tryExtract ping5 = .ok v ∧ v.status ≠ .needMoreData) := ⟨rfl, by decide, _, rfl, by decide⟩
theorem witness_EveryProperPrefixNeedsMore : isKnown 0x10#8 = true ∧
    [0x01#8, 0x44#8, 0x7A#8, 0x00#8, 0x00#8].length ≤ 255 ∧ (0x78#8 : Byte) ∉ [0xAA#8] ∧ 10 < 5 + 6 := by decide
/-- Program P1 with an attempt between each two pushes; the ceilings 5 (no flush can occur) and 4. -/
theorem witness_LoopBackUnderEverySchedule : isKnown 0x05#8 = true ∧ ([] : List Byte).length ≤ 255 ∧
    (0x78#8 : Byte) ∉ (small 5 6 []).rxBuf ∧ (small 5 6 []).rxBuf.length + 0 + 6 ≤ (small 5 6 []).params.rxCap ∧
    scheduledBytes (ping5.flatMap fun b => [some b, none]) = encFrame 0x05#8 [] ∧
    (small 5 6 []).rxBuf.length + 0 + 5 ≤ (small 5 6 []).params.rxCeiling ∧
    ¬ (small 4 6 []).rxBuf.length + 0 + 5 ≤ (small 4 6 []).params.rxCeiling := by decide
theorem witness_InvalidStallsUntilAFlush :
    tryExtract (holding [0x78#8, 0x05#8, 0x00#8, 0x00#8, 0x01#8, 0x79#8]).rxBuf = .ok badSum ∧ badSum.status = .invalid :=
  ⟨rfl, rfl⟩
/-- V-RX-25. -/
theorem witness_TwoFramesComeOutOneByOne : isKnown 0x05#8 = true ∧ isKnown 0x02#8 = true ∧ ([] : List Byte).length ≤ 255 ∧
    (holding (ping5 ++ [0x78#8, 0x02#8, 0x00#8, 0x00#8, 0x00#8, 0x79#8])).rxBuf =
      encFrame 0x05#8 [] ++ encFrame 0x02#8 [] := by decide
theorem witness_DrainTerminates : ∃ t, exec .rxAttempt (holding ping5) = .next t ∧ t.lastOk = true := ⟨_, rfl, rfl⟩

/-- The hypotheses of the three statements on good frames: junk of one byte, and room for just the frame. -/
theorem witness_FramesAreHandedOut : empty79.payload.length ≤ 255 ∧
    empty79.checksumHi = hiByte (checksum empty79.payload) ∧ empty79.checksumLo = loByte (checksum empty79.payload) ∧
    empty79.stop = 0x79#8 ∧ (0x78#8 : Byte) ∉ (small 4 7 [0xAA#8]).rxBuf ∧
    (small 4 7 [0xAA#8]).rxBuf.length + empty79.payload.length + 6 ≤ (small 4 7 [0xAA#8]).params.rxCap := by decide
theorem witness_FrameWithBadChecksumIsInvalid :
    frameKind 0x05#8 ⟨[], 0x00#8, 0x01#8, 0x79#8⟩ = some (.ping ⟨[], 0x00#8, 0x01#8, 0x79#8⟩) ∧
    (0x01#8 : Byte) ≠ loByte (checksum []) ∧ (0x78#8 : Byte) ∉ (small 4 6 []).rxBuf ∧
    (small 4 6 []).rxBuf.length + 0 + 6 ≤ (small 4 6 []).params.rxCap := by decide
theorem witness_FrameWithBadStopIsInvalid :
    frameKind 0x33#8 ⟨[], 0x00#8, 0x00#8, 0x78#8⟩ = some (.pipelineStatus ⟨[], 0x00#8, 0x00#8, 0x78#8⟩) ∧
    (0x00#8 : Byte) = hiByte (checksum []) ∧ (0x00#8 : Byte) = loByte (checksum []) ∧ (0x78#8 : Byte) ≠ 0x79#8 ∧
    (0x78#8 : Byte) ∉ (small 4 6 []).rxBuf ∧ (small 4 6 []).rxBuf.length + 0 + 6 ≤ (small 4 6 []).params.rxCap := by decide
theorem witness_FrameArrivalIsItsScript : frameKind 0x05#8 empty79 = some (.ping empty79) := rfl
/-- The three ways a frame's arrival ends: handed out, flushed, left in the buffer. -/
theorem witness_FrameArrivalLeavesTheRest : frameKind 0x05#8 empty79 = some (.ping empty79) ∧
    (∃ t, exec (.ping empty79) State.reset = .next t ∧ t.rxBuf = []) ∧
    (∃ t, exec (.ping empty79) (small 4 5 []) = .next t ∧ t.rxBuf = [] ∧ t.rxOverrun = true) ∧
    (∃ t, exec (.ping empty79) (small 16 64 [0x78#8, 0x18#8]) = .next t ∧ t.rxBuf = [0x78#8, 0x18#8] ++ ping5) :=
  ⟨rfl, ⟨_, rfl, rfl⟩, ⟨_, rfl, rfl, rfl⟩, ⟨_, rfl, rfl⟩⟩

theorem witness_EveryStepKeepsTheInvariant : (State.reset.withFetchWord 8 4).Inv ∧
    ∃ t, step (State.reset.withFetchWord 8 4) = .next t := ⟨⟨rfl, rfl, rfl⟩, _, rfl⟩
/-- At the capacity itself. -/
theorem witness_FillStaysWithinCapacity : (small 4 8 (List.replicate 8 0x00#8)).rxFill ≤ 8 ∧
    ∃ t, exec (.rxPush 0x00#8) (small 4 8 (List.replicate 8 0x00#8)) = .next t := ⟨by decide, _, rfl⟩
/-- The four cases: unchanged, appended, prefix removed, all removed (by a flush, by RESET). -/
theorem witness_BufferChangesOnlyInThreeWays :
    (isOperation .chkRead = true ∧ ∃ t, exec .chkRead State.reset = .next t) ∧
    (isOperation (.rxPush 0x00#8) = true ∧ ∃ t, exec (.rxPush 0x00#8) State.reset = .next t ∧ t.rxBuf = [0x00#8]) ∧
    (isOperation .rxAttempt = true ∧ ∃ t, exec .rxAttempt (holding (ping5 ++ [0x78#8])) = .next t ∧ t.rxBuf = [0x78#8]) ∧
    (∃ t, exec .rxAttempt (small 1 8 [0x00#8, 0x00#8]) = .next t ∧ t.rxBuf = []) ∧
    (isOperation .blockReset = true ∧ ∃ t, exec .blockReset (holding [0x78#8]) = .next t ∧ t.rxBuf = []) :=
  ⟨⟨rfl, _, rfl⟩, ⟨rfl, _, rfl, rfl⟩, ⟨rfl, _, rfl, rfl⟩, ⟨_, rfl, rfl⟩, ⟨rfl, _, rfl, rfl⟩⟩
theorem witness_OverrunIsStickyUntilReset : Instr.rxAttempt ≠ .blockReset ∧
    ∃ t, exec .rxAttempt { State.reset with rxOverrun := true } = .next t := ⟨by decide, _, rfl⟩
theorem witness_EachUnitOwnsItsState : unitOf (.enc 0x05#8 []) ≠ .checksum ∧ unitOf (.enc 0x05#8 []) ≠ .all ∧
    unitOf (.enc 0x05#8 []) ≠ .reassembler ∧ unitOf .chkClear ≠ .encoder ∧
    (∃ t, exec (.enc 0x05#8 []) State.reset = .next t) ∧ (∃ t, exec .chkClear State.reset = .next t) :=
  ⟨by decide, by decide, by decide, by decide, ⟨_, rfl⟩, _, rfl⟩
theorem witness_OperationsOfDifferentUnitsCommute : unitOf (.chkByte 0x05#8) ≠ unitOf (.ping empty79) ∧
    unitOf (.chkByte 0x05#8) ≠ .all ∧ unitOf (.ping empty79) ≠ .all := by decide
/-- R6 at its bounds. -/
theorem witness_LegalBlockAlwaysSteps : (small 1 2 []).params.legal = true ∧ (small 1 1 []).params.legal = false ∧
    (small 0 1 []).params.legal = false := by decide
theorem witness_StepRunsTheDecodedInstruction : State.reset.params.legal = true ∧
    (State.reset.setRequests [.chunk ping5]).requests = .chunk ping5 :: [] ∧
    decode (.chunk ping5) = .ok (.ping empty79) ∧ (Instr.ping empty79).wellFormed = true := ⟨rfl, rfl, rfl, rfl⟩
theorem witness_StepOnRequestsThatAreNoInstruction : State.reset.params.legal = true ∧ State.reset.requests = [] ∧
    (State.reset.setRequests [.port ⟨6, 0x00#8, []⟩]).requests = .port ⟨6, 0x00#8, []⟩ :: [] ∧
    decode (.chunk []) = .error .shortHeader := ⟨rfl, rfl, rfl, rfl⟩

end Sys2Proof.Tests
end

