-- ==== Sys2Proof/Proofs/BufferChanges.lean ====
section
/-!
PROOF. What each of the seven operations can do to the receive buffer (`10_state.md` R23): the bound on how many bytes
an attempt consumes, one lemma per kind of operation, and O53 assembled from them.
-/
namespace Sys2Proof.Machine

/-! The bytes an attempt consumes stand in the buffer. -/

/-- Behind `n` bytes of junk `judge` consumes no more than these, the start byte and the bytes behind it (R88). -/
theorem judge_consumed_le (n : Nat) (rest : List Byte) : (judge n rest).consumed ≤ n + (rest.length + 1) := by
  match rest with
  | [] => exact Nat.zero_le _
  | [cmd] => rw [judge]; split <;> exact Nat.zero_le _
  | cmd :: len :: tail =>
    rw [judge]
    split
    · split
      · rename_i hi lo stop more hd
        have hwhole : 3 ≤ (tail.drop len.toNat).length := by simp [hd]
        rw [List.length_drop] at hwhole
        split
        · exact Nat.zero_le _
        · split
          · exact Nat.zero_le _
          · simp only [okFrame, List.length_cons]; omega
      · exact Nat.zero_le _
    · exact Nat.zero_le _

/-- A verdict consumes no more than the buffer holds. -/
theorem tryExtract_consumed_le {m : Memory} {v : Verdict} (h : tryExtract m = .ok v) : v.consumed ≤ m.length := by
  rcases start_split m with hno | ⟨junk, rest, hj, rfl⟩
  · rw [tryExtract_no_start hno] at h; cases h; exact Nat.zero_le _
  · rw [tryExtract_junk hj] at h; cases h
    simpa using judge_consumed_le junk.length rest

/-! The operations one by one. -/

/-- The operations are the seven of R53. -/
theorem isOperation_cases {i : Instr} (h : isOperation i = true) :
    i = .chkClear ∨ (∃ b, i = .chkByte b) ∨ i = .chkRead ∨ (∃ cmd p, i = .enc cmd p) ∨ (∃ b, i = .rxPush b) ∨
      i = .rxAttempt ∨ i = .blockReset := by
  cases i
  case chkClear | chkByte | chkRead | enc | rxPush | rxAttempt | blockReset => simp
  all_goals exact absurd h (by simp [isOperation, encode])

/-- An `ENC`, emitting or refused, leaves the buffer (R67). -/
theorem execEnc_rxBuf {cmd : Byte} {p : List Byte} {s t : State} (h : execEnc cmd p s = .next t) :
    t.rxBuf = s.rxBuf := by
  unfold execEnc at h
  split at h
  · cases h; rfl
  · split at h <;> (cases h; rfl)

/-- An accepted push appends its byte, a lost one leaves the buffer (R78). -/
theorem rxPush_rxBuf (b : Byte) (s : State) :
    ((rxPush b s).outputs = .pushed true :: s.outputs ∧ (rxPush b s).rxBuf = s.rxBuf ++ [b]) ∨
      (rxPush b s).rxBuf = s.rxBuf := by
  rcases rxPush_cases b s with ⟨-, e⟩ | ⟨-, e⟩ <;> rw [e]
  · exact .inl ⟨rfl, rfl⟩
  · exact .inr rfl

/-- An attempt removes the leading bytes an `Ok` consumes, flushes on another status, or leaves the buffer (R89-R91). -/
theorem rxAttempt_rxBuf {s t : State} (h : rxAttempt s = .next t) :
    (∃ v, v.status = .ok ∧ t.outputs = .attempted v false :: s.outputs ∧ v.consumed ≤ s.rxFill ∧
        t.rxBuf = s.rxBuf.drop v.consumed) ∨
      (∃ v, v.status ≠ .ok ∧ t.outputs = .attempted v true :: s.outputs ∧ t.rxBuf = []) ∨
      t.rxBuf = s.rxBuf := by
  obtain ⟨v, hv, rfl⟩ := rxAttempt_next h
  rcases concludeAttempt_cases v s with ⟨hok, e⟩ | ⟨hnot, -, e⟩ | ⟨-, -, e⟩ <;> rw [e]
  · exact .inl ⟨v, hok, rfl, tryExtract_consumed_le hv, rfl⟩
  · exact .inr (.inl ⟨v, hnot, rfl, rfl⟩)
  · exact .inr (.inr rfl)

/-- Settles O53: the checksum unit and the encoder leave the buffer; the push, the attempt and `RESET` change it as
their own lemmas say. -/
theorem bufferChangesOnlyInThreeWays : Obligations.BufferChangesOnlyInThreeWays := by
  intro i s t hop h
  rcases isOperation_cases hop with rfl | ⟨b, rfl⟩ | rfl | ⟨cmd, p, rfl⟩ | ⟨b, rfl⟩ | rfl | rfl
  · cases h; exact .inl rfl
  · cases h; exact .inl rfl
  · cases h; exact .inl rfl
  · exact .inl (execEnc_rxBuf h)
  · rw [exec_rxPush] at h; cases h
    rcases rxPush_rxBuf b s with ⟨hout, hbuf⟩ | hbuf
    · exact .inr (.inl ⟨b, rfl, hout, hbuf⟩)
    · exact .inl hbuf
  · rcases rxAttempt_rxBuf h with hok | ⟨v, hnot, hout, hbuf⟩ | hbuf
    · exact .inr (.inr (.inl ⟨rfl, hok⟩))
    · exact .inr (.inr (.inr ⟨.inr ⟨rfl, v, hnot, hout⟩, hbuf⟩))
    · exact .inl hbuf
  · cases h; exact .inr (.inr (.inr ⟨.inl rfl, rfl⟩))

end Sys2Proof.Machine
end

