-- ==== Sys2Proof/Proofs/MemoryAccess.lean ====
section
/-!
PROOF. The two accesses of `20_memory.md` from outside: an append changes the read of one index only (R25, O21), and an
attempt that is not `Ok` and does not flush only reads, so it can be repeated (R28, O34).
-/
namespace Sys2Proof.Machine

/-! The one cell a push writes. -/

/-- An append changes no read but the one at the old `rx_fill`: older bytes stay (R25), and what lies beyond the new
byte still does not exist (R27). -/
theorem Memory.read_append_ne {m : Memory} {b : Byte} {i : Nat} (h : i ≠ m.length) :
    (m.append b).read i = m.read i := by
  rcases Nat.lt_or_gt_of_ne h with hold | hbeyond
  · exact read_append_old hold
  · rw [read_ge (by simp only [append, List.length_append, List.length_singleton]; omega), read_ge (by omega)]

/-- With room a push appends its byte and reports that it did (R25, R78). -/
theorem rxPush_of_room (b : Byte) {s : State} (h : s.rxFill < s.params.rxCap) :
    rxPush b s = (s.setRxBuf (s.rxBuf.append b)).report (.pushed true) := by
  rw [rxPush, if_pos (State.hasRoom_iff.mpr h)]

/-- Settles O21: the push is an append, and the laws of the append's reads say the rest. -/
theorem rxPushWritesOneCell : Obligations.RxPushWritesOneCell := by
  intro b s hroom
  refine ⟨_, exec_rxPush b s, ?_⟩
  rw [rxPush_of_room b hroom]
  exact ⟨List.length_append, Memory.read_append_new, fun a ha => Memory.read_append_ne ha⟩

/-! The attempt that only reads. -/

/-- An attempt that is not `Ok` records `flushed = 0` exactly when the buffer is not over the ceiling, and then its
record is all that it leaves (R28, R91). -/
theorem rxAttempt_fruitless_iff {s t : State} {v : Verdict} (hnot : v.status ≠ .ok) :
    (rxAttempt s = .next t ∧ t.outputs = .attempted v false :: s.outputs) ↔
      tryExtract s.rxBuf = .ok v ∧ s.rxBuf.length ≤ s.params.rxCeiling ∧ t = s.report (.attempted v false) := by
  constructor
  · rintro ⟨hrun, hout⟩
    obtain ⟨w, hw, rfl⟩ := rxAttempt_next hrun
    rcases concludeAttempt_cases w s with ⟨hok, e⟩ | ⟨-, -, e⟩ | ⟨-, hfill, e⟩ <;> rw [e] at hout ⊢
    · cases hout; exact absurd hok hnot
    · cases hout
    · cases hout; exact ⟨hw, hfill, rfl⟩
  · rintro ⟨hv, hfill, rfl⟩
    rcases concludeAttempt_cases v s with ⟨hok, -⟩ | ⟨-, hover, -⟩ | ⟨-, -, e⟩
    · exact absurd hok hnot
    · omega
    · exact ⟨e ▸ rxAttempt_of_verdict hv, rfl⟩

/-- Settles O34: the first attempt left buffer and ceiling alone, so the condition that made it fruitless still holds
and the second attempt is the same one. -/
theorem fruitlessAttemptIsIdempotent : Obligations.FruitlessAttemptIsIdempotent := by
  intro s t v hrun hout hnot
  obtain ⟨hv, hfill, rfl⟩ := (rxAttempt_fruitless_iff hnot).mp ⟨hrun, hout⟩
  have hrepeat := (rxAttempt_fruitless_iff (s := s.report (.attempted v false)) hnot).mpr ⟨hv, hfill, rfl⟩
  exact ⟨rfl, hrepeat.1⟩

end Sys2Proof.Machine
end

