-- ==== Sys2Proof/Proofs/KnownCodes.lean ====
section
/-!
PROOF. The CommandId table of `30_encoding.md` R47 and R48: `KNOWN` as ranges and as a list, the frame kinds of the 22
codes and of no other byte, the three classes, and O3 assembled from them.
-/
namespace Sys2Proof.Machine

/-! The set. -/

/-- R47's predicate on a byte, as a proposition. -/
theorem isKnown_iff_ranges (v : Byte) :
    isKnown v = true ↔ (0x01 ≤ v.toNat ∧ v.toNat ≤ 0x09) ∨ (0x10 ≤ v.toNat ∧ v.toNat ≤ 0x17) ∨ v.toNat = 0x19 ∨
      (0x30 ≤ v.toNat ∧ v.toNat ≤ 0x33) := by
  simp only [isKnown, Bool.or_eq_true, Bool.and_eq_true, decide_eq_true_eq, or_assoc]

/-- R47's predicate holds of its 22 codes and of no other byte. -/
theorem isKnown_iff_listed (v : Byte) :
    isKnown v = true ↔ v.toNat ∈ [0x01, 0x02, 0x03, 0x04, 0x05, 0x06, 0x07, 0x08, 0x09, 0x10, 0x11, 0x12, 0x13, 0x14,
      0x15, 0x16, 0x17, 0x19, 0x30, 0x31, 0x32, 0x33] := by
  constructor
  · intro h
    rw [isKnown_iff_ranges] at h
    simp only [List.mem_cons, List.not_mem_nil, or_false]
    omega
  · intro hlisted
    by_contra hunknown
    exact not_listed_of_unknown v (Bool.eq_false_iff.mpr hunknown) hlisted

/-! The names. -/

/-- A byte outside `KNOWN` has no frame kind. -/
theorem frameKind_of_unknown {v : Byte} (h : isKnown v = false) (f : FrameBody) : frameKind v f = none := by
  rw [Option.eq_none_iff_forall_ne_some]
  intro i hi
  exact absurd (known_of_frameKind hi) (Bool.eq_false_iff.mp h)

/-! The classes. -/

/-- A byte outside `KNOWN` has no class. -/
theorem commandClass_of_unknown {v : Byte} (h : isKnown v = false) : commandClass v = none := by
  simp [commandClass, h]

/-- What class a byte has: one of R48's three by the range it stands in, or none outside `KNOWN`. -/
theorem commandClass_cases (v : Byte) :
    ((0x01 ≤ v.toNat ∧ v.toNat ≤ 0x09) ∧ commandClass v = some .generic) ∨
    (((0x10 ≤ v.toNat ∧ v.toNat ≤ 0x17) ∨ v.toNat = 0x19) ∧ commandClass v = some .function) ∨
    ((0x30 ≤ v.toNat ∧ v.toNat ≤ 0x33) ∧ commandClass v = some .statusPush) ∨
    (isKnown v = false ∧ commandClass v = none) := by
  by_cases hk : isKnown v = true
  · have hranges := (isKnown_iff_ranges v).mp hk
    unfold commandClass
    rw [if_pos hk]
    by_cases hgeneric : v.toNat ≤ 0x09
    · rw [if_pos hgeneric]
      exact .inl ⟨by omega, rfl⟩
    · rw [if_neg hgeneric]
      by_cases hfunction : v.toNat ≤ 0x19
      · rw [if_pos hfunction]
        exact .inr (.inl ⟨by omega, rfl⟩)
      · rw [if_neg hfunction]
        exact .inr (.inr (.inl ⟨by omega, rfl⟩))
  · have hunknown : isKnown v = false := Bool.eq_false_iff.mpr hk
    exact .inr (.inr (.inr ⟨hunknown, commandClass_of_unknown hunknown⟩))

/-- Each class is exactly its range of R48: the ranges are disjoint and their union is `KNOWN`. -/
theorem commandClass_iff_range (v : Byte) :
    (commandClass v = some .generic ↔ 0x01 ≤ v.toNat ∧ v.toNat ≤ 0x09) ∧
    (commandClass v = some .function ↔ (0x10 ≤ v.toNat ∧ v.toNat ≤ 0x17) ∨ v.toNat = 0x19) ∧
    (commandClass v = some .statusPush ↔ 0x30 ≤ v.toNat ∧ v.toNat ≤ 0x33) := by
  rcases commandClass_cases v with ⟨hrange, hclass⟩ | ⟨hrange, hclass⟩ | ⟨hrange, hclass⟩ | ⟨hunknown, hclass⟩
  · simp only [hclass, Option.some.injEq, reduceCtorEq, true_iff, false_iff]; omega
  · simp only [hclass, Option.some.injEq, reduceCtorEq, true_iff, false_iff]; omega
  · simp only [hclass, Option.some.injEq, reduceCtorEq, true_iff, false_iff]; omega
  · have hout := mt (isKnown_iff_ranges v).mpr (Bool.eq_false_iff.mp hunknown)
    simp only [hclass, reduceCtorEq, false_iff]; omega

/-- Settles O3: the set by its two descriptions, the 22 names by the table itself, the rest by the lemmas above. -/
theorem knownSetNamesAndClasses : Obligations.KnownSetNamesAndClasses := by
  refine ⟨isKnown_iff_listed, isKnown_iff_ranges, ?names, ?unknown, fun v => (commandClass_iff_range v).1,
    fun v => (commandClass_iff_range v).2.1, fun v => (commandClass_iff_range v).2.2⟩
  case names =>
    intro f
    repeat' apply And.intro
    all_goals rfl
  case unknown =>
    intro v f h
    exact ⟨frameKind_of_unknown h f, commandClass_of_unknown h⟩

end Sys2Proof.Machine
end

