-- ==== Sys2Proof/Proofs/AttemptVerdicts.lean ====
section
/-!
PROOF. What `RX_ATTEMPT` answers (`42_stream_reassembler.md`): the start search (R81, O24), the three ways a buffer is
`Invalid` (R83, R86, R87; O26, O29, O30), and why an `Invalid` buffer stays `Invalid` until a flush (R91, O38).
-/
namespace Sys2Proof.Machine

/-! The answer of an attempt. -/

/-- An attempt answers the verdict of its buffer (R79). -/
theorem attemptAnswers_of_verdict {s : State} {v : Verdict} (h : tryExtract s.rxBuf = .ok v) : AttemptAnswers s v := by
  rw [AttemptAnswers, exec_rxAttempt, rxAttempt_of_verdict h, concludeAttempt_eq_afterAttempt]

/-- Behind the first start byte the attempt answers what `judge` says (R80). -/
theorem attemptAnswers_judge {s : State} {junk rest : List Byte} (hj : START ∉ junk)
    (hbuf : s.rxBuf = junk ++ START :: rest) : AttemptAnswers s (judge junk.length rest) :=
  attemptAnswers_of_verdict (by rw [hbuf, tryExtract_junk hj])

/-- Every buffer has a verdict (R27: no read of an attempt fails). -/
theorem tryExtract_total (m : Memory) : ∃ v, tryExtract m = .ok v := by
  rcases start_split m with hno | ⟨junk, rest, hj, rfl⟩
  · exact ⟨_, tryExtract_no_start hno⟩
  · exact ⟨_, tryExtract_junk hj⟩

/-! The start search. -/

/-- The start search finds the least index holding the start byte (R81). -/
theorem findStart_eq_some_iff (m : Memory) (i : Nat) :
    findStart m = some i ↔ m[i]? = some START ∧ ∀ j < i, m[j]? ≠ some START := by
  rw [findStart, List.findIdx?_eq_some_iff_getElem]
  simp only [decide_eq_true_eq]
  constructor
  · rintro ⟨hi, hat, hbefore⟩
    refine ⟨List.getElem?_eq_some_iff.mpr ⟨hi, hat⟩, fun j hj hjat => ?_⟩
    exact hbefore j hj (List.getElem?_eq_some_iff.mp hjat).2
  · rintro ⟨hat, hbefore⟩
    obtain ⟨hi, hat⟩ := List.getElem?_eq_some_iff.mp hat
    exact ⟨hi, hat, fun j hj hjat => hbefore j hj (List.getElem?_eq_some_iff.mpr ⟨by omega, hjat⟩)⟩

/-- The start search finds nothing exactly in a buffer without a start byte (R81). -/
theorem findStart_eq_none_iff (m : Memory) : findStart m = none ↔ START ∉ m := by
  refine ⟨fun hnone hmem => ?_, findStart_none⟩
  obtain ⟨junk, rest, rfl, hj⟩ := List.eq_append_cons_of_mem hmem
  rw [findStart_junk hj] at hnone
  cases hnone

/-- Settles O24: the two laws of the start search, and R81's answer when it finds nothing. -/
theorem attemptScansForTheFirstStart : Obligations.AttemptScansForTheFirstStart :=
  ⟨findStart_eq_some_iff, findStart_eq_none_iff, fun _ hno => attemptAnswers_of_verdict (tryExtract_no_start hno)⟩

/-! The three rejections. -/

/-- Behind an unrecognised command byte nothing more is looked at (R83). -/
theorem judge_unknown (n : Nat) {cmd : Byte} (rest : List Byte) (hk : isKnown cmd = false) :
    judge n (cmd :: rest) = invalidFrame .badCommand := by
  cases rest <;> simp [judge, hk]

/-- Settles O26: the command test comes first behind the start byte. -/
theorem attemptRejectsUnknownCommand : Obligations.AttemptRejectsUnknownCommand := by
  intro s junk rest cmd hj hk hbuf
  have hans := attemptAnswers_judge hj hbuf
  rwa [judge_unknown _ rest hk] at hans

/-- Settles O29: a pair with a wrong byte is not the checksum, and the stop byte is tested behind that. -/
theorem attemptRejectsBadChecksum : Obligations.AttemptRejectsBadChecksum := by
  intro s junk payload rest cmd len hi lo stop hj hk hlen hbuf hwrong
  have hpair : fromBytes hi lo ≠ checksum payload := by
    rwa [Ne, fromBytes_eq_iff, not_and_or]
  have hans := attemptAnswers_judge hj hbuf
  rwa [judge_whole _ _ _ _ _ _ _ _ hk hlen, if_pos hpair] at hans

/-- Settles O30: the pair of the checksum's own bytes passes R86, so the stop byte decides. -/
theorem attemptRejectsBadStop : Obligations.AttemptRejectsBadStop := by
  intro s junk payload rest cmd len stop hj hk hlen hbuf hstop
  have hans := attemptAnswers_judge hj hbuf
  rwa [judge_whole _ _ _ _ _ _ _ _ hk hlen, if_neg (not_not_intro (fromBytes_split _)),
    if_pos (show stop ≠ STOP from hstop)] at hans

/-! More bytes do not change a decided verdict. -/

/-- Behind a recognised command `judge` waits, or the candidate is whole (R85). -/
theorem judge_waits_or_whole (n : Nat) {cmd : Byte} (len : Byte) (tail : List Byte) (hk : isKnown cmd = true) :
    judge n (cmd :: len :: tail) = needMore ∨
      ∃ payload hi lo stop more, payload.length = len.toNat ∧ tail = payload ++ hi :: lo :: stop :: more := by
  by_cases hwhole : ∃ hi lo stop more, tail.drop len.toNat = hi :: lo :: stop :: more
  · obtain ⟨hi, lo, stop, more, hd⟩ := hwhole
    refine .inr ⟨tail.take len.toNat, hi, lo, stop, more, ?_, by rw [← hd, List.take_append_drop]⟩
    have : 3 ≤ (tail.drop len.toNat).length := by simp [hd]
    rw [List.length_drop] at this
    rw [List.length_take]; omega
  · left
    rw [judge, if_pos hk]
    split
    · rename_i hd; exact absurd ⟨_, _, _, _, hd⟩ hwhole
    · rfl

/-- `judge` either waits or has decided on the bytes it has seen, so that bytes behind them change nothing (R93). -/
theorem judge_append (n : Nat) (rest more : List Byte) (hdecided : judge n rest ≠ needMore) :
    judge n (rest ++ more) = judge n rest := by
  match rest with
  | [] => exact absurd rfl hdecided
  | [cmd] =>
    by_cases hk : isKnown cmd = true
    · exact absurd (by rw [judge, if_pos hk]) hdecided
    · rw [Bool.not_eq_true] at hk
      rw [List.singleton_append, judge_unknown n _ hk, judge_unknown n _ hk]
  | cmd :: len :: tail =>
    by_cases hk : isKnown cmd = true
    · rcases judge_waits_or_whole n len tail hk with hwait | ⟨payload, hi, lo, stop, behind, hlen, rfl⟩
      · exact absurd hwait hdecided
      · simp only [List.cons_append, List.append_assoc, judge_whole n _ _ _ _ _ _ _ hk hlen]
    · rw [Bool.not_eq_true] at hk
      rw [List.cons_append, judge_unknown n _ hk, judge_unknown n _ hk]

/-- A verdict other than `NeedMoreData` stays when bytes are appended (R93). -/
theorem tryExtract_append {m : Memory} {v : Verdict} (more : List Byte) (h : tryExtract m = .ok v)
    (hdecided : v.status ≠ .needMoreData) : tryExtract (m ++ more) = .ok v := by
  rcases start_split m with hno | ⟨junk, rest, hj, rfl⟩
  · rw [tryExtract_no_start hno] at h; cases h
    exact absurd rfl hdecided
  · rw [tryExtract_junk hj] at h; cases h
    have hne : judge junk.length rest ≠ needMore := fun e => hdecided (congrArg Verdict.status e)
    rw [List.append_assoc, List.cons_append, tryExtract_junk hj, judge_append _ _ _ hne]

/-- Only an `Ok` carries a frame (R79, R80). -/
theorem judge_frame_of_not_ok {n : Nat} {rest : List Byte} (hnot : (judge n rest).status ≠ .ok) :
    (judge n rest).frame = none := by
  match rest with
  | [] => rfl
  | [cmd] => rw [judge]; split <;> rfl
  | cmd :: len :: tail =>
    by_cases hk : isKnown cmd = true
    · rcases judge_waits_or_whole n len tail hk with hwait | ⟨payload, hi, lo, stop, behind, hlen, rfl⟩
      · rw [hwait]; rfl
      · rw [judge_whole n _ _ _ _ _ _ _ hk hlen] at hnot ⊢
        split_ifs at hnot ⊢
        · rfl
        · rfl
        · exact absurd rfl hnot
    · rw [Bool.not_eq_true] at hk
      rw [judge_unknown n _ hk]; rfl

/-- A verdict that is not `Ok` carries no frame. -/
theorem tryExtract_frame_of_not_ok {m : Memory} {v : Verdict} (h : tryExtract m = .ok v) (hnot : v.status ≠ .ok) :
    v.frame = none := by
  rcases start_split m with hno | ⟨junk, rest, hj, rfl⟩
  · rw [tryExtract_no_start hno] at h; cases h; rfl
  · rw [tryExtract_junk hj] at h; cases h
    exact judge_frame_of_not_ok hnot

/-! The stall. -/

/-- A buffer whose verdict is the `Invalid` `v` (R91). -/
def Stalled (v : Verdict) (m : Memory) : Prop := tryExtract m = .ok v ∧ v.status = .invalid

/-- The records a stall with verdict `v` leaves (R91): that verdict without a flush, or a push's. -/
def StallRecord (v : Verdict) (o : Output) : Prop := o = .attempted v false ∨ o = .pushed true ∨ o = .pushed false

/-- Pushed bytes do not end a stall. -/
theorem Stalled.append {v : Verdict} {m : Memory} (h : Stalled v m) (more : List Byte) : Stalled v (m ++ more) := by
  obtain ⟨hv, hinvalid⟩ := h
  exact ⟨tryExtract_append more hv (by simp [hinvalid]), hinvalid⟩

/-- A stall's records hand out no frame. -/
theorem Stalled.framesOf_eq_nil {v : Verdict} {m : Memory} {os : List Output} (h : Stalled v m)
    (hrec : ∀ o ∈ os, StallRecord v o) : framesOf os = [] := by
  obtain ⟨hv, hinvalid⟩ := h
  rw [framesOf, List.filterMap_eq_nil_iff]
  intro o ho
  rcases hrec o ho with rfl | rfl | rfl
  · exact tryExtract_frame_of_not_ok hv (by simp [hinvalid])
  · rfl
  · rfl

/-- One operation of a schedule completes with one record. On a stalled buffer that record is a stall's, unless it is a
flush, and the buffer only grows at its end. -/
theorem receive_one (op : Option Byte) (s : State) :
    ∃ t o, execAll (receiveScript [op]) s = .next t ∧ t.outputs = o :: s.outputs ∧
      ∀ v, Stalled v s.rxBuf → o.isFlush = false → StallRecord v o ∧ ∃ more, t.rxBuf = s.rxBuf ++ more := by
  cases op with
  | some b =>
    have hrun : execAll (receiveScript [some b]) s = .next (rxPush b s) := rfl
    rcases rxPush_cases b s with ⟨-, e⟩ | ⟨-, e⟩ <;> rw [e] at hrun
    · exact ⟨_, _, hrun, rfl, fun v _ _ => ⟨.inr (.inl rfl), [b], rfl⟩⟩
    · exact ⟨_, _, hrun, rfl, fun v _ _ => ⟨.inr (.inr rfl), [], (List.append_nil _).symm⟩⟩
  | none =>
    obtain ⟨w, hw⟩ := tryExtract_total s.rxBuf
    have hrun : execAll (receiveScript [none]) s = .next (concludeAttempt w s) := by
      simp [receiveScript, execAll, exec_rxAttempt, rxAttempt_of_verdict hw]
    have same : ∀ v, Stalled v s.rxBuf → v = w := fun v hv => Except.ok.inj (hv.1.symm.trans hw)
    rcases concludeAttempt_cases w s with ⟨hok, e⟩ | ⟨-, -, e⟩ | ⟨-, -, e⟩ <;> rw [e] at hrun
    · refine ⟨_, _, hrun, rfl, fun v hv _ => ?_⟩
      have hinvalid := hv.2
      rw [same v hv, hok] at hinvalid
      cases hinvalid
    · exact ⟨_, _, hrun, rfl, fun v _ hflush => nomatch hflush⟩
    · exact ⟨_, _, hrun, rfl, fun v hv _ => ⟨.inl (same v hv ▸ rfl), [], (List.append_nil _).symm⟩⟩

/-- A schedule completes from every state. From a stalled buffer, while no record is a flush, all are a stall's and the
old buffer stays in front. -/
theorem receive_all (schedule : List (Option Byte)) (s : State) :
    ∃ t new, execAll (receiveScript schedule) s = .next t ∧ t.outputs = new ++ s.outputs ∧
      ∀ v, Stalled v s.rxBuf → (∀ o ∈ new, o.isFlush = false) →
        (∀ o ∈ new, StallRecord v o) ∧ ∃ more, t.rxBuf = s.rxBuf ++ more := by
  induction schedule generalizing s with
  | nil => exact ⟨s, [], rfl, rfl, fun v _ _ => ⟨by simp, [], (List.append_nil _).symm⟩⟩
  | cons op ops ih =>
    obtain ⟨u, o, hone, hout, hstall⟩ := receive_one op s
    obtain ⟨t, new, hrest, houts, hstalls⟩ := ih u
    refine ⟨t, new ++ [o], (execAll_append _ (receiveScript ops) s u hone).trans hrest, by simp [houts, hout], ?_⟩
    intro v hv hnoflush
    rw [List.forall_mem_append, List.forall_mem_singleton] at hnoflush ⊢
    obtain ⟨hrec, more, hbuf⟩ := hstall v hv hnoflush.2
    obtain ⟨hrecs, more', hbuf'⟩ := hstalls v (hbuf ▸ hv.append more) hnoflush.1
    exact ⟨⟨hrecs, hrec⟩, more ++ more', by rw [hbuf', hbuf, List.append_assoc]⟩

/-- Settles O38: an `Invalid` buffer is stalled, and the schedule keeps it so. -/
theorem invalidStallsUntilAFlush : Obligations.InvalidStallsUntilAFlush := by
  intro s v schedule hv hinvalid
  have hstalled : Stalled v s.rxBuf := ⟨hv, hinvalid⟩
  obtain ⟨t, new, hrun, hout, hstall⟩ := receive_all schedule s
  refine ⟨t, new, hrun, hout, fun hnoflush => ?_⟩
  obtain ⟨hrecs, hbuf⟩ := hstall v hstalled hnoflush
  exact ⟨hrecs, hstalled.framesOf_eq_nil hrecs, hbuf⟩

end Sys2Proof.Machine
end

