-- ==== Sys2Proof/Proofs/CommandCatalog.lean ====
section
/-!
PROOF. The block does the same with every recognised CommandId (`43_command_catalog.md` R100): what `ENC` emits, what an
attempt hands out, and a verdict in which the command id is a mere label; O19 assembled from them.
-/
namespace Sys2Proof.Machine

/-- `ENC` emits the frame of a recognised command and of a payload its length byte can count (R67, R100(a)). -/
theorem exec_enc_emits {k : Byte} {p : List Byte} (hk : isKnown k = true) (hp : p.length ≤ 255) (s : State) :
    exec (.enc k p) s = .next ((s.deliver (encFrame k p)).report (.encoded .noError (encFrame k p))) := by
  have hknown : ¬ isKnown k = false := by simp [hk]
  rw [exec, execEnc, if_neg hknown, if_neg (Nat.not_lt.mpr hp)]

/-- The checksum's own pair passes R86 and the stop byte R87, so a good frame of a recognised command is handed out
(R88, R100(b)). -/
theorem judge_good (n : Nat) {cmd len : Byte} {payload : List Byte} (rest : List Byte) (hk : isKnown cmd = true)
    (hlen : payload.length = len.toNat) :
    judge n (cmd :: len :: (payload ++ hiByte (checksum payload) :: loByte (checksum payload) :: STOP :: rest)) =
      okFrame n cmd len payload := by
  rw [judge_whole _ _ _ _ _ _ _ _ hk hlen, if_neg (not_not_intro (fromBytes_split _)), if_neg (not_not_intro rfl)]

/-- A verdict with another command id in its frame, if it has one. -/
def Verdict.withCommandId (v : Verdict) (cmd : Byte) : Verdict :=
  { v with frame := v.frame.map fun fr => { fr with commandId := cmd } }

/-- Behind the command test `judge` only copies the command byte: one recognised command for another changes the command
id of the frame (R100(c)). -/
theorem judge_withCommandId (n : Nat) {cmd cmd' : Byte} (rest : List Byte) (hk : isKnown cmd = true)
    (hk' : isKnown cmd' = true) : judge n (cmd' :: rest) = (judge n (cmd :: rest)).withCommandId cmd' := by
  match rest with
  | [] => rw [judge, judge, if_pos hk, if_pos hk']; rfl
  | len :: tail =>
    rw [judge, judge, if_pos hk, if_pos hk']
    split
    · split_ifs <;> rfl
    · rfl

/-- Settles O19: the emitted frame, the good frame, and the exchange of one recognised command for another. -/
theorem everyCommandIsTreatedAlike : Obligations.EveryCommandIsTreatedAlike := by
  intro k hk
  refine ⟨?emits, ?handsOut, ?exchange⟩
  case emits =>
    intro p s hp
    exact ⟨_, exec_enc_emits hk hp s, by simp [encFrame_eq]⟩
  case handsOut =>
    intro s junk payload rest len hj hlen hbuf
    have hans := attemptAnswers_judge hj hbuf
    rw [show (0x79#8 : Byte) = STOP from rfl, judge_good _ rest hk hlen] at hans
    exact ⟨_, _, hans, rfl, rfl, rfl⟩
  case exchange =>
    intro k' junk rest hk' hj
    exact ⟨_, _, tryExtract_junk hj, tryExtract_junk hj, judge_withCommandId _ rest hk hk'⟩

end Sys2Proof.Machine
end

