-- ==== Sys2Proof/Proofs/CodecRoundTrip.lean ====
section
/-!
PROOF. The encoder and the decoder undo each other (`30_encoding.md`): every instruction is an operation or the frame
kind of a code, and both read back (O1, O2); header words, operation numbers and result codes (O4 to O8).
-/
namespace Sys2Proof.Machine

/-! The round trip. -/

/-- An instruction that is no operation is the frame kind of a code of R47. -/
theorem exists_frameKind {i : Instr} (h : isOperation i = false) : ∃ k f, frameKind k f = some i := by
  cases i with
  | reset f => exact ⟨0x01#8, f, rfl⟩
  | requestVersion f => exact ⟨0x02#8, f, rfl⟩
  | getSetting f => exact ⟨0x03#8, f, rfl⟩
  | updateSetting f => exact ⟨0x04#8, f, rfl⟩
  | ping f => exact ⟨0x05#8, f, rfl⟩
  | setSerialNumber f => exact ⟨0x06#8, f, rfl⟩
  | syncTime f => exact ⟨0x07#8, f, rfl⟩
  | getRealTime f => exact ⟨0x08#8, f, rfl⟩
  | resetDefault f => exact ⟨0x09#8, f, rfl⟩
  | changeVolume f => exact ⟨0x10#8, f, rfl⟩
  | pushColor f => exact ⟨0x11#8, f, rfl⟩
  | mixColor f => exact ⟨0x12#8, f, rfl⟩
  | controlIo f => exact ⟨0x13#8, f, rfl⟩
  | calibration f => exact ⟨0x14#8, f, rfl⟩
  | doorControl f => exact ⟨0x15#8, f, rfl⟩
  | setExpireUsageTime f => exact ⟨0x16#8, f, rfl⟩
  | getExpireUsageTime f => exact ⟨0x17#8, f, rfl⟩
  | pushColorWithDirection f => exact ⟨0x19#8, f, rfl⟩
  | deviceError f => exact ⟨0x30#8, f, rfl⟩
  | inputStatus f => exact ⟨0x31#8, f, rfl⟩
  | machineStatus f => exact ⟨0x32#8, f, rfl⟩
  | pipelineStatus f => exact ⟨0x33#8, f, rfl⟩
  | chkClear | chkByte | chkRead | enc | rxPush | rxAttempt | blockReset => cases h

/-- A frame kind encodes to its code's frame and is well formed with its body (R40, R43). -/
theorem frameKind_encode {k : Byte} {f : FrameBody} {i : Instr} (h : frameKind k f = some i) :
    encode i = .chunk (frameBytes k f) ∧ i.wellFormed = f.wellFormed := by
  obtain ⟨j, hj, henc, hwf⟩ := frameKind_of_known (known_of_frameKind h) f
  cases h.symm.trans hj
  exact ⟨henc, hwf⟩

/-- The bytes of a well-formed frame, alone in a chunk, decode to its kind (R51). -/
theorem decode_frameBytes {k : Byte} {f : FrameBody} {i : Instr} (hf : f.wellFormed = true)
    (hi : frameKind k f = some i) : decode (.chunk (frameBytes k f)) = .ok i := by
  have hread := decodeFrame_frameBytes (known_of_frameKind hi) hf hi []
  rw [List.append_nil] at hread
  exact decode_chunk.mpr hread

/-- Settles O1: an operation's port word carries its number and operands; a frame kind reads back off its bytes. -/
theorem decodeOfEncodeIsTheInstruction : Obligations.DecodeOfEncodeIsTheInstruction := by
  intro i hwf
  cases hop : isOperation i with
  | true =>
    rcases isOperation_cases hop with rfl | ⟨b, rfl⟩ | rfl | ⟨cmd, p, rfl⟩ | ⟨b, rfl⟩ | rfl | rfl <;> rfl
  | false =>
    obtain ⟨k, f, hi⟩ := exists_frameKind hop
    obtain ⟨henc, hbody⟩ := frameKind_encode hi
    rw [henc]
    exact decode_frameBytes (hbody ▸ hwf) hi

/-- Settles O2: what decodes is the bytes of a well-formed frame and nothing behind them, and a frame kind encodes to
these. -/
theorem decodedChunkIsItsOwnEncoding : Obligations.DecodedChunkIsItsOwnEncoding := by
  intro bytes i hdecode
  obtain ⟨k, f, -, hf, hi, hbytes⟩ := decodeFrame_ok (decode_chunk.mp hdecode)
  obtain ⟨henc, hbody⟩ := frameKind_encode hi
  exact ⟨hbody.trans hf, by rw [henc, hbytes, List.append_nil]⟩

/-! The table's words. -/

/-- R52's header word holds the start byte, the code and the length byte, first byte on top. -/
theorem headerBytes_word (k len : Byte) :
    headerBytes (0x780000 + k.toNat * 256 + len.toNat) = [START, k, len] := by
  have hk := k.isLt
  have hlen := len.isLt
  have htop : (0x780000 + k.toNat * 256 + len.toNat) / 65536 = 0x78 := by omega
  have hmid : (0x780000 + k.toNat * 256 + len.toNat) / 256 % 256 = k.toNat := by omega
  have hlow : (0x780000 + k.toNat * 256 + len.toNat) % 256 = len.toNat := by omega
  have hkbyte : BitVec.ofNat 8 ((0x780000 + k.toNat * 256 + len.toNat) / 256) = k :=
    BitVec.eq_of_toNat_eq (by rw [BitVec.toNat_ofNat]; exact hmid)
  have hlenbyte : BitVec.ofNat 8 (0x780000 + k.toNat * 256 + len.toNat) = len :=
    BitVec.eq_of_toNat_eq (by rw [BitVec.toNat_ofNat]; exact hlow)
  rw [headerBytes, htop, hkbyte, hlenbyte]
  rfl

/-- The frame of a header word with zeros behind it (log 13). -/
theorem tableRequest_header (k len : Byte) :
    tableRequest 24 (0x780000 + k.toNat * 256 + len.toNat) =
      .chunk (frameBytes k ⟨List.replicate len.toNat 0#8, 0#8, 0#8, 0#8⟩) := by
  have hlen := len.isLt
  have hlow : (0x780000 + k.toNat * 256 + len.toNat) % 256 = len.toNat := by omega
  have hzeros : List.replicate (len.toNat + 3) (0#8 : Byte) = List.replicate len.toNat 0#8 ++ [0#8, 0#8, 0#8] :=
    List.replicate_add ..
  rw [tableRequest, if_neg (by decide), headerBytes_word, hlow, hzeros]
  simp [frameBytes]

/-- Settles O4: the word's bytes are a well-formed frame of its code. -/
theorem headerWordSelectsItsRow : Obligations.HeaderWordSelectsItsRow := by
  intro k len hk
  have hlen := len.isLt
  have hwf : (⟨List.replicate len.toNat 0#8, 0#8, 0#8, 0#8⟩ : FrameBody).wellFormed = true := by
    rw [FrameBody.wellFormed_iff, List.length_replicate]; omega
  obtain ⟨i, hi, -⟩ := frameKind_of_known hk ⟨List.replicate len.toNat 0#8, 0#8, 0#8, 0#8⟩
  rw [decodeTableWord, tableRequest_header, decode_frameBytes hwf hi, hi]

/-! Numbers and layouts, which the definitions spell out. -/

/-- Settles O5: R53's table, read off the decoder. -/
theorem operationNumbersDecode : Obligations.OperationNumbersDecode :=
  fun _ _ => ⟨rfl, rfl, rfl, rfl, rfl, rfl, rfl, rfl⟩

/-- Settles O6: R40's layout under each of the 22 codes, read off the encoder. -/
theorem encodingOfEachFrameKind : Obligations.EncodingOfEachFrameKind := by
  intro f
  repeat' apply And.intro
  all_goals rfl

/-- Settles O7: the decoder run on the vectors' bytes and the operations' words. -/
theorem sampleWordsDecode : Obligations.SampleWordsDecode :=
  ⟨rfl, rfl, rfl, rfl, rfl, rfl⟩

/-- Settles O8: R54's numbers; none of the three statuses and of the three encoder results is 3. -/
theorem resultCodesAreNumbered : Obligations.ResultCodesAreNumbered := by
  refine ⟨⟨rfl, rfl, rfl, fun x => ?status⟩, ⟨rfl, rfl, rfl, rfl⟩, rfl, rfl, rfl, fun x => ?encErr⟩
  case status => cases x <;> decide
  case encErr => cases x <;> decide

end Sys2Proof.Machine
end

