-- ==== Sys2Proof/Proofs/ChecksumUnit.lean ====
section
/-!
PROOF. The checksum as the byte sum modulo 65536 (`40_checksum.md` sections 2 and 3, decision D1; O12, O13, O15), its
two bytes on the wire (O16), and the accumulator's operations (section 4; O9 to O11, O14).
-/
namespace Sys2Proof.Machine

/-! The byte sum. -/

/-- The checksum's value is the sum of the bytes modulo 65536 (R57). -/
theorem checksum_toNat (p : List Byte) : (checksum p).toNat = (p.map BitVec.toNat).sum % 65536 := by
  simpa [checksum] using foldl_chkStep_toNat p 0x0000#16

/-- Sequences of equal byte sums have one checksum. -/
theorem checksum_eq_of_sum_eq {p q : List Byte} (h : (p.map BitVec.toNat).sum = (q.map BitVec.toNat).sum) :
    checksum p = checksum q :=
  BitVec.eq_of_toNat_eq (by rw [checksum_toNat, checksum_toNat, h])

/-- A byte is at most 255, so `n` of them sum to at most `n * 255`. -/
theorem byteSum_le (p : List Byte) : (p.map BitVec.toNat).sum ≤ p.length * 255 := by
  have hbyte : ∀ n ∈ p.map BitVec.toNat, n ≤ 255 := by
    intro n hn
    obtain ⟨b, -, rfl⟩ := List.mem_map.mp hn
    exact Nat.le_of_lt_succ b.isLt
  simpa using List.sum_le_card_nsmul _ 255 hbyte

/-- The checksum of one byte repeated. -/
theorem checksum_replicate_toNat (n : Nat) (b : Byte) :
    (checksum (List.replicate n b)).toNat = n * b.toNat % 65536 := by
  rw [checksum_toNat, List.map_replicate, List.sum_replicate, smul_eq_mul]

/-- Settles O12: the step and the fold as numbers. -/
theorem checksumIsTheByteSum : Obligations.ChecksumIsTheByteSum :=
  ⟨chkStep_toNat, fun _ => rfl, checksum_toNat⟩

/-- Settles O13: a left fold over two sequences is a fold over the second from where the first ended. -/
theorem checksumIncrementalIsOnePass : Obligations.ChecksumIncrementalIsOnePass :=
  ⟨fun _ _ => List.foldl_append, fun _ _ _ => List.foldl_append⟩

/-- Within a frame the sum stays below 65536 (R62). -/
theorem checksum_toNat_of_le {p : List Byte} (h : p.length ≤ 255) :
    (checksum p).toNat = (p.map BitVec.toNat).sum ∧ (checksum p).toNat ≤ 0xFE01 := by
  have hsum := byteSum_le p
  rw [checksum_toNat]; omega

/-- Settles O15: each law is one of the byte sum. -/
theorem checksumArithmeticLaws : Obligations.ChecksumArithmeticLaws := by
  refine ⟨?frame, ?fits, ?wraps, ?perm, ?zero⟩
  case frame =>
    intro p hp
    obtain ⟨hsum, hmax⟩ := checksum_toNat_of_le hp
    refine ⟨hsum, hmax, ?_⟩
    rw [hiByte_toNat]; omega
  case fits => exact BitVec.eq_of_toNat_eq (checksum_replicate_toNat 257 0xFF#8)
  case wraps => exact BitVec.eq_of_toNat_eq (checksum_replicate_toNat 258 0xFF#8)
  case perm => exact fun p q h => checksum_eq_of_sum_eq (h.map _).sum_eq
  case zero => exact fun p q => checksum_eq_of_sum_eq (by simp)

/-- Settles O16: the pair put together is the received value, and a value's pair is its own two bytes. -/
theorem checksumPairIsBigEndian : Obligations.ChecksumPairIsBigEndian := by
  intro c
  refine ⟨hiByte_toNat c, loByte_toNat c, fun hi lo => ?_⟩
  rw [← fromBytes_toNat, BitVec.toNat_inj, fromBytes_eq_iff]

/-! The operations. -/

/-- `CHK_BYTE` of each byte in order folds them into the accumulator, one empty record each (R65). -/
theorem execAll_chkBytes (p : List Byte) (s : State) :
    execAll (p.map .chkByte) s = .next { s with
      chkAcc := p.foldl chkStep s.chkAcc, outputs := List.replicate p.length .nothing ++ s.outputs } := by
  induction p generalizing s with
  | nil => rfl
  | cons b p ih =>
    simp only [List.map_cons, execAll, exec_chkByte, ih]
    simp [State.report, State.setChkAcc, List.replicate_succ']

/-- `CHK_SEQ` of a sequence leaves its checksum in the accumulator and on the newest record (R56, R64 to R66). -/
theorem execAll_chkSeq (p : List Byte) (s : State) :
    execAll (chkSeq p) s = .next { s with
      chkAcc := checksum p
      outputs := .chkValue (checksum p) :: (List.replicate (p.length + 1) .nothing ++ s.outputs) } := by
  have hclear : execAll [.chkClear] s = .next ((s.setChkAcc 0x0000#16).report .nothing) := rfl
  refine (execAll_append [.chkClear] (p.map .chkByte ++ [.chkRead]) s _ hclear).trans ?_
  rw [execAll_append _ _ _ _ (execAll_chkBytes p _), List.replicate_succ']
  simp [execAll, exec, execChkRead, State.report, State.setChkAcc, checksum]

/-- Settles O9: R64, as the operation is defined. -/
theorem chkClearResult : Obligations.ChkClearResult := fun _ => rfl

/-- Settles O10: the accumulator after the step, as a number. -/
theorem chkByteResult : Obligations.ChkByteResult :=
  fun b s => ⟨chkStep s.chkAcc b, chkStep_toNat s.chkAcc b, exec_chkByte b s⟩

/-- Settles O11: the read alone, and the read at the end of `CHK_SEQ`. -/
theorem chkReadResult : Obligations.ChkReadResult :=
  ⟨fun _ => rfl, ⟨_, rfl, rfl⟩, fun p s => ⟨_, execAll_chkSeq p s, rfl⟩⟩

/-- Settles O14: `CHK_SEQ` of no bytes. -/
theorem emptyPayloadChecksumIsZero : Obligations.EmptyPayloadChecksumIsZero :=
  ⟨checksum_nil, fun s => ⟨_, execAll_chkSeq [] s, rfl⟩⟩

end Sys2Proof.Machine
end

