-- ==== Sys2Proof/Proofs/EncoderUnit.lean ====
section
/-!
PROOF. The frame encoder (`41_frame_encoder.md`): its three outcomes (R67, R68, O17) and the form of every frame that it
emits (R76, O18).
-/
namespace Sys2Proof.Machine

/-- Settles O17: R67's three outcomes, as the operation is defined. -/
theorem encResult : Obligations.EncResult := fun _ _ _ => rfl

/-- Everything an `ENC` can do, in every state alike: refuse by one of R68's errors, or emit its frame (R67). -/
theorem exec_enc_cases (cmd : Byte) (p : List Byte) :
    (∃ err, err ≠ .noError ∧ ∀ s, exec (.enc cmd p) s = .next (s.report (.encoded err []))) ∨
    (isKnown cmd = true ∧ p.length ≤ 255 ∧ ∀ s,
      exec (.enc cmd p) s = .next ((s.deliver (encFrame cmd p)).report (.encoded .noError (encFrame cmd p)))) := by
  cases hk : isKnown cmd with
  | false =>
    exact .inl ⟨.encBadCommand, by decide, fun s => by rw [exec, execEnc, if_pos hk]⟩
  | true =>
    by_cases hp : p.length ≤ 255
    · exact .inr ⟨rfl, hp, exec_enc_emits hk hp⟩
    · refine .inl ⟨.encTooLong, by decide, fun s => ?_⟩
      rw [exec, execEnc, if_neg (by simp [hk]), if_pos (by omega)]

/-- A frame on an `ENC` record without error is the encoder's frame of a recognised command and a payload its length
byte can count. -/
theorem encFrame_of_emitted {cmd : Byte} {p F : List Byte} {s t : State} (h : exec (.enc cmd p) s = .next t)
    (hout : t.outputs = .encoded .noError F :: s.outputs) :
    isKnown cmd = true ∧ p.length ≤ 255 ∧ F = encFrame cmd p := by
  rcases exec_enc_cases cmd p with ⟨err, herr, hrun⟩ | ⟨hk, hp, hrun⟩
  · rw [hrun] at h; cases h
    cases hout
    exact absurd rfl herr
  · rw [hrun] at h; cases h
    cases hout
    exact ⟨hk, hp, rfl⟩

@[simp] theorem encFrame_length (cmd : Byte) (p : List Byte) : (encFrame cmd p).length = p.length + 6 := by
  simp [encFrame_eq]

/-- What stands behind the payload of an emitted frame, by its distance from the payload's end. -/
theorem encFrame_getElem?_behind (cmd : Byte) (p : List Byte) (i : Nat) :
    (encFrame cmd p)[3 + p.length + i]? = [hiByte (checksum p), loByte (checksum p), 0x79#8][i]? := by
  rw [encFrame_eq, show 3 + p.length + i = p.length + i + 1 + 1 + 1 by omega]
  simp only [List.getElem?_cons_succ]
  rw [List.getElem?_append_right (by omega), Nat.add_sub_cancel_left]

/-- The payload region of an emitted frame is the payload. -/
theorem encFrame_payload (cmd : Byte) (p : List Byte) : ((encFrame cmd p).drop 3).take p.length = p := by
  simp [encFrame_eq]

/-- Settles O18: the emitted frame is `encFrame`'s, whose bytes R67 lists. -/
theorem emittedFrameIsWellFormed : Obligations.EmittedFrameIsWellFormed := by
  intro cmd p s t F h hout
  obtain ⟨hk, hp, rfl⟩ := encFrame_of_emitted h hout
  have hlen := lengthByte_toNat hp
  refine ⟨rfl, ⟨cmd, rfl, hk⟩, BitVec.ofNat 8 p.length, hiByte (checksum p), loByte (checksum p), rfl, hlen, ?_⟩
  rw [hlen, encFrame_payload, ← fromBytes_toNat, fromBytes_split]
  refine ⟨encFrame_length cmd p, encFrame_getElem?_behind cmd p 0, ?_, rfl, ?_⟩
  · rw [show 4 + p.length = 3 + p.length + 1 by omega]; exact encFrame_getElem?_behind cmd p 1
  · rw [show 5 + p.length = 3 + p.length + 2 by omega]; exact encFrame_getElem?_behind cmd p 2

end Sys2Proof.Machine
end

