-- ==== Sys2Proof/Proofs/UnitEffects.lean ====
section
/-!
PROOF. What an instruction of each unit reads and writes (`10_state.md` sections 3, 6 and 10), said once per unit; from
it completion (O57), the capacity (O52), the sticky flag (O54), ownership (O55) and commutation (O56). `RESET` is apart
(O48, O49).
-/
namespace Sys2Proof.Machine

/-! The reassembler. -/

/-- The parts of the state the reassembler reads are the same in both. -/
structure SameRx (s s' : State) : Prop where
  params : s'.params = s.params
  rxBuf : s'.rxBuf = s.rxBuf
  rxOverrun : s'.rxOverrun = s.rxOverrun

/-- The state with the reassembler's parts replaced and new records in front. -/
def State.received (s : State) (m : Memory) (overrun : Bool) (new : List Output) : State :=
  { s with rxBuf := m, rxOverrun := overrun, outputs := new ++ s.outputs }

/-- What every change by the reassembler keeps: the capacity (R22), a set flag (R24), the sink (R38); and at least one
record is delivered (R17). -/
structure RxChange (s : State) (m : Memory) (overrun : Bool) (new : List Output) : Prop where
  fill : s.rxFill ≤ s.params.rxCap → m.length ≤ s.params.rxCap
  sticky : s.rxOverrun = true → overrun = true
  records : new ≠ []
  silent : ∀ o ∈ new, o.sinkBytes = []

theorem RxChange.trans {s : State} {m m' : Memory} {overrun overrun' : Bool} {new new' : List Output}
    (h : RxChange s m overrun new) (h' : RxChange (s.received m overrun new) m' overrun' new') :
    RxChange s m' overrun' (new' ++ new) where
  fill := fun hs => h'.fill (h.fill hs)
  sticky := fun hs => h'.sticky (h.sticky hs)
  records := List.append_ne_nil_of_right_ne_nil _ h.records
  silent := List.forall_mem_append.mpr ⟨h'.silent, h.silent⟩

/-- A change with one record. -/
theorem RxChange.single {s : State} {m : Memory} {overrun : Bool} {o : Output}
    (fill : s.rxFill ≤ s.params.rxCap → m.length ≤ s.params.rxCap) (sticky : s.rxOverrun = true → overrun = true)
    (silent : o.sinkBytes = []) : RxChange s m overrun [o] :=
  ⟨fill, sticky, List.cons_ne_nil _ _, List.forall_mem_singleton.mpr silent⟩

/-- A run that completes, and whose change of the reassembler's parts is the same wherever these are the same. -/
def RxLocal (run : State → Host.Outcome State Fault Refusal) : Prop :=
  ∀ s, ∃ m overrun new, RxChange s m overrun new ∧
    ∀ s', SameRx s s' → run s' = .next (s'.received m overrun new)

/-- Without room a push loses its byte, sets the flag and reports that (R78, R131). -/
theorem rxPush_of_full (b : Byte) {s : State} (h : s.params.rxCap ≤ s.rxFill) :
    rxPush b s = (s.setRxOverrun true).report (.pushed false) := by
  rcases rxPush_cases b s with ⟨hroom, -⟩ | ⟨-, e⟩
  · omega
  · exact e

/-- A push reads and writes the reassembler's parts only (R78). -/
theorem rxPush_local (b : Byte) (s : State) : ∃ m overrun new, RxChange s m overrun new ∧
    ∀ s', SameRx s s' → rxPush b s' = s'.received m overrun new := by
  by_cases hroom : s.rxFill < s.params.rxCap
  · refine ⟨s.rxBuf.append b, s.rxOverrun, [.pushed true], .single (fun _ => ?_) id rfl, ?_⟩
    · exact Memory.wf_iff.mp (Memory.wf_append hroom)
    · rintro s' ⟨hparams, hbuf, hover⟩
      rw [rxPush_of_room b (by rwa [State.rxFill_eq, hparams, hbuf]), hbuf, ← hover]
      rfl
  · refine ⟨s.rxBuf, true, [.pushed false], .single id (fun _ => rfl) rfl, ?_⟩
    rintro s' ⟨hparams, hbuf, -⟩
    rw [rxPush_of_full b (by rw [State.rxFill_eq, hparams, hbuf]; exact Nat.le_of_not_lt hroom), ← hbuf]
    rfl

/-- An attempt reads and writes the reassembler's parts only (R79, R89 to R91). -/
theorem rxAttempt_local : RxLocal rxAttempt := by
  intro s
  obtain ⟨v, hv⟩ := tryExtract_total s.rxBuf
  have hrun : ∀ s', SameRx s s' → rxAttempt s' = .next (s'.afterAttempt v) := fun s' hs => by
    rw [rxAttempt_of_verdict (hs.rxBuf ▸ hv), concludeAttempt_eq_afterAttempt]
  unfold State.afterAttempt at hrun
  by_cases hok : v.status = .ok
  · refine ⟨s.rxBuf.drop v.consumed, s.rxOverrun, [.attempted v false], .single (fun h => ?_) id rfl, ?_⟩
    · rw [List.length_drop]; exact (Nat.sub_le _ _).trans h
    · intro s' hs
      rw [hrun s' hs, if_pos hok, hs.rxBuf, ← hs.rxOverrun]
      rfl
  · by_cases hover : s.params.rxCeiling < s.rxBuf.length
    · refine ⟨[], s.rxOverrun, [.attempted v true], .single (fun _ => Nat.zero_le _) id rfl, ?_⟩
      intro s' hs
      rw [hrun s' hs, if_neg hok, if_pos (by rwa [hs.params, hs.rxBuf]), ← hs.rxOverrun]
      rfl
    · refine ⟨s.rxBuf, s.rxOverrun, [.attempted v false], .single id id rfl, ?_⟩
      intro s' hs
      rw [hrun s' hs, if_neg hok, if_neg (by rwa [hs.params, hs.rxBuf]), ← hs.rxOverrun, ← hs.rxBuf]
      rfl

/-- A push in front of a local run is local. -/
theorem RxLocal.after_push {run : State → Host.Outcome State Fault Refusal} (h : RxLocal run) (b : Byte) :
    RxLocal fun s => run (rxPush b s) := by
  intro s
  obtain ⟨m, overrun, new, hpush, hpushed⟩ := rxPush_local b s
  obtain ⟨m', overrun', new', hthen, hran⟩ := h (s.received m overrun new)
  refine ⟨m', overrun', new' ++ new, hpush.trans hthen, fun s' hs => ?_⟩
  have hsame : SameRx (s.received m overrun new) (s'.received m overrun new) := ⟨hs.params, rfl, rfl⟩
  simp only [hpushed s' hs, hran _ hsame]
  simp only [State.received, List.append_assoc]

/-- A chunk is pushes and an attempt, so it is local (R56). -/
theorem rxChunk_local (bytes : List Byte) : RxLocal (rxChunk bytes) := by
  induction bytes with
  | nil => exact rxAttempt_local
  | cons b bytes ih => exact ih.after_push b

/-! The units' instructions. -/

/-- The push as an instruction is local. -/
theorem exec_rxPush_local (b : Byte) : RxLocal (exec (.rxPush b)) := by
  intro s
  obtain ⟨m, overrun, new, hpush, hpushed⟩ := rxPush_local b s
  exact ⟨m, overrun, new, hpush, fun s' hs => by rw [exec_rxPush, hpushed s' hs]⟩

/-- A reassembler instruction is local: the push, the attempt, and a frame's chunk. -/
theorem exec_reassembler_local {i : Instr} (h : unitOf i = .reassembler) : RxLocal (exec i) := by
  cases hop : isOperation i with
  | false =>
    obtain ⟨k, f, hi⟩ := exists_frameKind hop
    rw [funext (exec_frameKind hi)]
    exact rxChunk_local _
  | true =>
    cases i
    case rxPush b => exact exec_rxPush_local b
    case rxAttempt => exact rxAttempt_local
    case chkClear | chkByte | chkRead | enc | blockReset => cases h
    all_goals cases hop

/-- A checksum instruction sets the accumulator and leaves one record, both by what the accumulator held (R64-R66). -/
theorem exec_checksum_local {i : Instr} (h : unitOf i = .checksum) (s : State) :
    ∃ acc o, o.sinkBytes = [] ∧
      ∀ s', s'.chkAcc = s.chkAcc → exec i s' = .next ((s'.setChkAcc acc).report o) := by
  cases i
  case chkClear => exact ⟨0x0000#16, .nothing, rfl, fun _ _ => rfl⟩
  case chkByte b => exact ⟨chkStep s.chkAcc b, .nothing, rfl, fun s' hs => by rw [exec_chkByte, hs]⟩
  case chkRead => exact ⟨s.chkAcc, .chkValue s.chkAcc, rfl, fun s' hs => by rw [← hs]; rfl⟩
  all_goals cases h

/-- `ENC` sends the bytes its record carries, none when it refuses, whatever the state (R67). -/
theorem exec_encoder_local {i : Instr} (h : unitOf i = .encoder) :
    ∃ err bytes, ∀ s, exec i s = .next ((s.deliver bytes).report (.encoded err bytes)) := by
  cases i
  case enc cmd p =>
    rcases exec_enc_cases cmd p with ⟨err, -, hrun⟩ | ⟨-, -, hrun⟩
    · exact ⟨err, [], fun s => by simp [hrun, State.deliver]⟩
    · exact ⟨.noError, encFrame cmd p, hrun⟩
  all_goals cases h

/-- Everything an instruction can do, by its unit. -/
theorem exec_cases (i : Instr) (s : State) :
    (unitOf i = .checksum ∧ ∃ acc o, o.sinkBytes = [] ∧ exec i s = .next ((s.setChkAcc acc).report o)) ∨
    (unitOf i = .encoder ∧ ∃ err bytes, exec i s = .next ((s.deliver bytes).report (.encoded err bytes))) ∨
    (unitOf i = .reassembler ∧ ∃ m overrun new, RxChange s m overrun new ∧
      exec i s = .next (s.received m overrun new)) ∨
    i = .blockReset := by
  cases hu : unitOf i with
  | checksum =>
    obtain ⟨acc, o, hsilent, hrun⟩ := exec_checksum_local hu s
    exact .inl ⟨rfl, acc, o, hsilent, hrun s rfl⟩
  | encoder =>
    obtain ⟨err, bytes, hrun⟩ := exec_encoder_local hu
    exact .inr (.inl ⟨rfl, err, bytes, hrun s⟩)
  | reassembler =>
    obtain ⟨m, overrun, new, hchange, hrun⟩ := exec_reassembler_local hu s
    exact .inr (.inr (.inl ⟨rfl, m, overrun, new, hchange, hrun s ⟨rfl, rfl, rfl⟩⟩))
  | all =>
    cases i
    case blockReset => exact .inr (.inr (.inr rfl))
    all_goals cases hu

/-! `RESET`. -/

/-- `RESET` as an equation (R141). -/
theorem exec_blockReset (s : State) : exec .blockReset s = .next { s with
    chkAcc := 0x0000#16, rxBuf := [], rxOverrun := false, outputs := .nothing :: s.outputs } := rfl

/-- Settles O48: R141, as the operation is defined. -/
theorem resetResult : Obligations.ResetResult := exec_blockReset

/-- Settles O49: `RESET` sets the three registers to what they hold at power-up. -/
theorem powerUpStateIsTheResetState : Obligations.PowerUpStateIsTheResetState :=
  ⟨⟨rfl, rfl, rfl⟩, fun s => ⟨_, exec_blockReset s, rfl, rfl, rfl⟩⟩

/-- A state that an instruction answers, by the instruction's unit. -/
theorem exec_next {i : Instr} {s t : State} (h : exec i s = .next t) :
    (unitOf i = .checksum ∧ ∃ acc o, o.sinkBytes = [] ∧ t = (s.setChkAcc acc).report o) ∨
    (unitOf i = .encoder ∧ ∃ err bytes, t = (s.deliver bytes).report (.encoded err bytes)) ∨
    (unitOf i = .reassembler ∧ ∃ m overrun new, RxChange s m overrun new ∧ t = s.received m overrun new) ∨
    (i = .blockReset ∧ t = { s with
      chkAcc := 0x0000#16, rxBuf := [], rxOverrun := false, outputs := .nothing :: s.outputs }) := by
  rcases exec_cases i s with ⟨hu, acc, o, hsilent, hrun⟩ | ⟨hu, err, bytes, hrun⟩ |
    ⟨hu, m, overrun, new, hchange, hrun⟩ | rfl
  · cases hrun.symm.trans h; exact .inl ⟨hu, acc, o, hsilent, rfl⟩
  · cases hrun.symm.trans h; exact .inr (.inl ⟨hu, err, bytes, rfl⟩)
  · cases hrun.symm.trans h; exact .inr (.inr (.inl ⟨hu, m, overrun, new, hchange, rfl⟩))
  · cases (exec_blockReset s).symm.trans h; exact .inr (.inr (.inr ⟨rfl, rfl⟩))

/-! What the units' instructions have in common. -/

/-- Settles O57: each unit's instructions deliver their records, `RESET` its empty one. -/
theorem everyInstructionCompletes : Obligations.EveryInstructionCompletes := by
  intro i s
  rcases exec_cases i s with ⟨-, acc, o, -, hrun⟩ | ⟨-, err, bytes, hrun⟩ | ⟨-, m, overrun, new, hchange, hrun⟩ | rfl
  · exact ⟨_, [o], hrun, by simp, rfl⟩
  · exact ⟨_, [.encoded err bytes], hrun, by simp, rfl⟩
  · exact ⟨_, new, hrun, hchange.records, rfl⟩
  · exact ⟨_, [.nothing], exec_blockReset s, by simp, rfl⟩

/-- Settles O52: only the reassembler writes the buffer, and `RESET` empties it. -/
theorem fillStaysWithinCapacity : Obligations.FillStaysWithinCapacity := by
  intro i s t hfill h
  rcases exec_next h with ⟨-, acc, o, -, rfl⟩ | ⟨-, err, bytes, rfl⟩ | ⟨-, m, overrun, new, hchange, rfl⟩ | ⟨rfl, rfl⟩
  · exact hfill
  · exact hfill
  · exact hchange.fill hfill
  · exact Nat.zero_le _

/-- Settles O54: only the reassembler and `RESET` write the flag, and the reassembler only sets it. -/
theorem overrunIsStickyUntilReset : Obligations.OverrunIsStickyUntilReset := by
  refine ⟨fun i s t hi hset h => ?_, fun s => ⟨_, exec_blockReset s, rfl⟩⟩
  rcases exec_next h with ⟨-, acc, o, -, rfl⟩ | ⟨-, err, bytes, rfl⟩ | ⟨-, m, overrun, new, hchange, rfl⟩ | ⟨rfl, rfl⟩
  · exact hset
  · exact hset
  · exact hchange.sticky hset
  · exact absurd rfl hi

/-- Settles O55: each unit's instructions write their own unit's fields and the records. -/
theorem eachUnitOwnsItsState : Obligations.EachUnitOwnsItsState := by
  intro i s t h
  rcases exec_next h with ⟨hu, acc, o, -, rfl⟩ | ⟨hu, err, bytes, rfl⟩ | ⟨hu, m, overrun, new, -, rfl⟩ | ⟨rfl, rfl⟩
  · exact ⟨fun hn _ => absurd hu hn, fun _ _ => ⟨rfl, rfl⟩, fun _ => rfl, List.prefix_rfl, rfl, rfl⟩
  · exact ⟨fun _ _ => rfl, fun _ _ => ⟨rfl, rfl⟩, fun hn => absurd hu hn, List.prefix_append _ _, rfl, rfl⟩
  · exact ⟨fun _ _ => rfl, fun hn => absurd hu hn, fun _ => rfl, List.prefix_rfl, rfl, rfl⟩
  · exact ⟨fun _ hn => absurd rfl hn, fun _ hn => absurd rfl hn, fun _ => rfl, List.prefix_rfl, rfl, rfl⟩

/-! Commutation. -/

/-- Both orders of two instructions complete in states that differ at most in the order of their records. -/
def CommuteAt (i j : Instr) (s : State) : Prop :=
  ∃ t u, execAll [i, j] s = .next t ∧ execAll [j, i] s = .next u ∧
    t.chkAcc = u.chkAcc ∧ t.rxBuf = u.rxBuf ∧ t.rxOverrun = u.rxOverrun ∧ t.sink = u.sink ∧
    t.params = u.params ∧ t.requests = u.requests ∧ t.outputs.Perm u.outputs

theorem CommuteAt.symm {i j : Instr} {s : State} (h : CommuteAt i j s) : CommuteAt j i s := by
  obtain ⟨t, u, ht, hu, hacc, hbuf, hover, hsink, hparams, hreq, hperm⟩ := h
  exact ⟨u, t, hu, ht, hacc.symm, hbuf.symm, hover.symm, hsink.symm, hparams.symm, hreq.symm, hperm.symm⟩

/-- A script goes on from the state its first instruction answers (R35). -/
theorem execAll_cons {i : Instr} {s t : State} (h : exec i s = .next t) (is : List Instr) :
    execAll (i :: is) s = execAll is t := by
  rw [execAll, h]

theorem execAll_pair {i j : Instr} {s t u : State} (hi : exec i s = .next t) (hj : exec j t = .next u) :
    execAll [i, j] s = .next u := by
  rw [execAll_cons hi, execAll_cons hj, execAll]

theorem checksum_commutes_encoder {i j : Instr} (hi : unitOf i = .checksum) (hj : unitOf j = .encoder) (s : State) :
    CommuteAt i j s := by
  obtain ⟨acc, o, -, hrun⟩ := exec_checksum_local hi s
  obtain ⟨err, bytes, hsend⟩ := exec_encoder_local hj
  exact ⟨_, _, execAll_pair (hrun s rfl) (hsend _), execAll_pair (hsend s) (hrun _ rfl), rfl, rfl, rfl, rfl, rfl, rfl,
    List.Perm.swap ..⟩

theorem checksum_commutes_reassembler {i j : Instr} (hi : unitOf i = .checksum) (hj : unitOf j = .reassembler)
    (s : State) : CommuteAt i j s := by
  obtain ⟨acc, o, -, hrun⟩ := exec_checksum_local hi s
  obtain ⟨m, overrun, new, -, hreceive⟩ := exec_reassembler_local hj s
  exact ⟨_, _, execAll_pair (hrun s rfl) (hreceive _ ⟨rfl, rfl, rfl⟩),
    execAll_pair (hreceive s ⟨rfl, rfl, rfl⟩) (hrun _ rfl), rfl, rfl, rfl, rfl, rfl, rfl, List.perm_middle⟩

theorem encoder_commutes_reassembler {i j : Instr} (hi : unitOf i = .encoder) (hj : unitOf j = .reassembler)
    (s : State) : CommuteAt i j s := by
  obtain ⟨err, bytes, hsend⟩ := exec_encoder_local hi
  obtain ⟨m, overrun, new, -, hreceive⟩ := exec_reassembler_local hj s
  exact ⟨_, _, execAll_pair (hsend s) (hreceive _ ⟨rfl, rfl, rfl⟩),
    execAll_pair (hreceive s ⟨rfl, rfl, rfl⟩) (hsend _), rfl, rfl, rfl, rfl, rfl, rfl, List.perm_middle⟩

/-- Settles O56: one lemma per pair of units, and their mirror images. -/
theorem operationsOfDifferentUnitsCommute : Obligations.OperationsOfDifferentUnitsCommute := by
  intro i j s hne hi hj
  change CommuteAt i j s
  cases hui : unitOf i <;> cases huj : unitOf j
  case checksum.encoder => exact checksum_commutes_encoder hui huj s
  case checksum.reassembler => exact checksum_commutes_reassembler hui huj s
  case encoder.reassembler => exact encoder_commutes_reassembler hui huj s
  case encoder.checksum => exact (checksum_commutes_encoder huj hui s).symm
  case reassembler.checksum => exact (checksum_commutes_reassembler huj hui s).symm
  case reassembler.encoder => exact (encoder_commutes_reassembler huj hui s).symm
  all_goals simp [hui, huj] at hne hi hj

end Sys2Proof.Machine
end

