-- ==== Sys2Proof/Proofs/StepInvariant.lean ====
section
/-!
PROOF. A step of the block: what it does with each kind of request (R35, S8; O58, O59, O60), and the invariant of R6,
R22 and R72, which holds at reset (O50) and which every step keeps (O51).
-/
namespace Sys2Proof.Machine

/-! Requests. -/

/-- The script of a chunk is the chunk, as the reassembler receives it (R56). -/
theorem execAll_chunkScript (bytes : List Byte) (s : State) : execAll (chunkScript bytes) s = rxChunk bytes s := by
  have hattempt : ∀ t, execAll [.rxAttempt] t = rxAttempt t := fun t => by
    rw [execAll, exec_rxAttempt]
    cases rxAttempt t <;> rfl
  rw [chunkScript, execAll_append _ _ _ _ (execAll_pushes bytes s), hattempt, rxChunk]

/-- A request that decodes is its instruction executed. -/
theorem serve_of_decode {r : Request} {i : Instr} (h : decode r = .ok i) (s : State) : serve r s = exec i s := by
  simp only [serve, h]

/-- A request that does not decode is ignored on the command port and received on the wire. -/
theorem serve_of_decode_error {r : Request} {e : DecodeError} (h : decode r = .error e) (s : State) :
    serve r s = serveUndecoded r s := by
  simp only [serve, h]

/-- Everything that serving a request can be: an instruction, nothing (R53, log 9), or a chunk (R98, log 10). -/
theorem serve_cases (r : Request) (s : State) :
    (∃ i, serve r s = exec i s) ∨ serve r s = .next s ∨ ∃ bytes, serve r s = rxChunk bytes s := by
  cases hd : decode r with
  | ok i => exact .inl ⟨i, serve_of_decode hd s⟩
  | error e =>
    rw [serve_of_decode_error hd]
    cases r with
    | port w => exact .inr (.inl rfl)
    | chunk bytes => exact .inr (.inr ⟨bytes, rfl⟩)

/-- Serving a request completes. -/
theorem serve_completes (r : Request) (s : State) : ∃ t, serve r s = .next t := by
  rcases serve_cases r s with ⟨i, e⟩ | e | ⟨bytes, e⟩ <;> rw [e]
  · obtain ⟨t, -, hrun, -⟩ := everyInstructionCompletes i s
    exact ⟨t, hrun⟩
  · exact ⟨s, rfl⟩
  · obtain ⟨m, overrun, new, -, hrun⟩ := rxChunk_local bytes s
    exact ⟨_, hrun s ⟨rfl, rfl, rfl⟩⟩

/-- A legal block with nothing to serve idles (log 14). -/
theorem step_idles {s : State} (hp : s.params.legal = true) (h : s.requests = []) : step s = .next s := by
  rw [step, if_pos hp, serveNext, takeRequest_nil h]

/-- Settles O58: a legal block idles or serves its oldest request; the test of the parameters stands before both. -/
theorem legalBlockAlwaysSteps : Obligations.LegalBlockAlwaysSteps := by
  refine ⟨fun s hp => ?legal, fun s hp => ?illegal⟩
  case legal =>
    cases hr : s.requests with
    | nil => exact ⟨s, step_idles hp hr⟩
    | cons r rs => rw [step_serves hp hr]; exact serve_completes r _
  case illegal => rw [step, if_neg (Bool.eq_false_iff.mp hp)]

/-- Settles O59: the oldest request is served, and one that decodes is its instruction executed. -/
theorem stepRunsTheDecodedInstruction : Obligations.StepRunsTheDecodedInstruction := by
  intro s r rs i hp hr hd _
  rw [step_serves hp hr, serve_of_decode hd]
  rfl

/-- Settles O60: the idle step, the reserved number, and the chunk that is no frame. -/
theorem stepOnRequestsThatAreNoInstruction : Obligations.StepOnRequestsThatAreNoInstruction := by
  intro s hp
  refine ⟨step_idles hp, fun b p rs hr => ?reserved, fun bytes rs e hr hd => ?chunk⟩
  case reserved =>
    have hreserved : decode (.port ⟨6, b, p⟩) = .error .reservedOp := rfl
    rw [step_serves hp hr, serve_of_decode_error hreserved]
    rfl
  case chunk =>
    rw [step_serves hp hr, serve_of_decode_error hd, execAll_chunkScript]
    rfl

/-! The invariant. -/

/-- Settles O50: the parameters of log 1 are legal, and the buffer, the records and the sink are empty. -/
theorem invariantHoldsAtReset : Obligations.InvariantHoldsAtReset := ⟨rfl, rfl, rfl⟩

/-- Records that send nothing add nothing to the sink (R72). -/
theorem sinkOf_append_silent {new : List Output} (h : ∀ o ∈ new, o.sinkBytes = []) (os : List Output) :
    sinkOf (new ++ os) = sinkOf os := by
  have hnothing : new.reverse.flatMap Output.sinkBytes = [] :=
    List.flatMap_eq_nil_iff.mpr fun o ho => h o (List.mem_reverse.mp ho)
  rw [sinkOf, List.reverse_append, List.flatMap_append, hnothing, List.append_nil, sinkOf]

/-- A change of the reassembler's parts keeps the invariant. -/
theorem State.Inv.received {s : State} {m : Memory} {overrun : Bool} {new : List Output} (h : s.Inv)
    (hchange : RxChange s m overrun new) : (s.received m overrun new).Inv := by
  obtain ⟨hp, hwf, hsink⟩ := h
  refine ⟨hp, Memory.wf_iff.mpr (hchange.fill (Memory.wf_iff.mp hwf)), ?_⟩
  exact hsink.trans (sinkOf_append_silent hchange.silent _).symm

/-- Every instruction keeps the invariant: a record and the sink grow by the same bytes. -/
theorem exec_keeps_inv {i : Instr} {s t : State} (hs : s.Inv) (h : exec i s = .next t) : t.Inv := by
  obtain ⟨hp, hwf, hsink⟩ := hs
  rcases exec_next h with ⟨-, acc, o, hsilent, rfl⟩ | ⟨-, err, bytes, rfl⟩ | ⟨-, m, overrun, new, hchange, rfl⟩ |
    ⟨rfl, rfl⟩
  · exact ⟨hp, hwf, by rw [State.report_outputs, sinkOf_cons, hsilent, List.append_nil]; exact hsink⟩
  · exact ⟨hp, hwf, by rw [State.report_outputs, sinkOf_cons]; exact congrArg (· ++ bytes) hsink⟩
  · exact State.Inv.received ⟨hp, hwf, hsink⟩ hchange
  · exact ⟨hp, rfl, by rw [sinkOf_cons]; exact hsink.trans (List.append_nil _).symm⟩

/-- Serving a request keeps the invariant. -/
theorem serve_keeps_inv {r : Request} {s t : State} (hs : s.Inv) (h : serve r s = .next t) : t.Inv := by
  rcases serve_cases r s with ⟨i, e⟩ | e | ⟨bytes, e⟩ <;> rw [e] at h
  · exact exec_keeps_inv hs h
  · cases h; exact hs
  · obtain ⟨m, overrun, new, hchange, hrun⟩ := rxChunk_local bytes s
    rw [hrun s ⟨rfl, rfl, rfl⟩] at h; cases h
    exact hs.received hchange

/-- Settles O51: an idle step changes nothing, taking a request off touches no part of the invariant, and serving it
keeps each. -/
theorem everyStepKeepsTheInvariant : Obligations.EveryStepKeepsTheInvariant := by
  intro s t hs h
  obtain ⟨-, ⟨-, rfl⟩ | ⟨r, rs, -, hserve⟩⟩ := step_next h
  · exact hs
  · have htaken : (s.setRequests rs).Inv := hs
    exact serve_keeps_inv htaken hserve

end Sys2Proof.Machine
end

