-- ==== Sys2Proof/Proofs/AttemptResults.lean ====
section
/-!
PROOF. The reassembler's operations (`42_stream_reassembler.md`): the push (O20), what an attempt sees and reads (O22,
O23), when it waits (O25, O27, O28, O36), what it hands out (O31, O32, O39), what it leaves (O33, O35), and that a drain
ends (O40).
-/
namespace Sys2Proof.Machine

/-! What an attempt judges. -/

/-- Settles O20: R78's two cases. -/
theorem rxPushResult : Obligations.RxPushResult := by
  intro b s
  rw [exec_rxPush]
  split
  case isTrue hroom => rw [rxPush_of_room b hroom]; rfl
  case isFalse hfull => rw [rxPush_of_full b (Nat.le_of_not_lt hfull)]; rfl

/-- Settles O22: pushes one by one are a run of pushes, and an attempt behind it makes the chunk. -/
theorem attemptSeesEveryAcceptedByte : Obligations.AttemptSeesEveryAcceptedByte := by
  intro p s
  obtain ⟨v, hv⟩ := tryExtract_total (pushAll p s).rxBuf
  exact ⟨pushAll p s, v, execAll_pushes p s, pushAll_rxBuf p s, hv,
    (execAll_chunkScript p s).trans (attemptAnswers_of_verdict hv)⟩

/-- Settles O23: the reads of a list, and a verdict for every buffer. -/
theorem attemptReadsOnlyWhatExists : Obligations.AttemptReadsOnlyWhatExists := by
  refine ⟨fun m i => ⟨?below, fun hi => ⟨m[i], Memory.read_lt hi⟩⟩, fun s => ?verdict⟩
  case below =>
    rintro ⟨b, hread⟩
    exact (List.getElem?_eq_some_iff.mp (Memory.read_ok_iff.mp hread)).1
  case verdict =>
    obtain ⟨v, hv⟩ := tryExtract_total s.rxBuf
    exact ⟨v, hv, attemptAnswers_of_verdict hv⟩

/-! Waiting. -/

/-- Settles O25: nothing stands behind the start byte. -/
theorem attemptWaitsForTheCommand : Obligations.AttemptWaitsForTheCommand :=
  fun _ _ hj hbuf => attemptAnswers_judge hj hbuf

/-- Settles O27: a recognised command passes R83, and nothing stands behind it. -/
theorem attemptWaitsForTheLength : Obligations.AttemptWaitsForTheLength := by
  intro s junk cmd hj hk hbuf
  have hans := attemptAnswers_judge hj hbuf
  rwa [judge, if_pos hk] at hans

/-- Settles O28: a candidate that were whole would be `L + 6` bytes behind the junk. -/
theorem attemptWaitsForTheWholeFrame : Obligations.AttemptWaitsForTheWholeFrame := by
  intro s junk tail cmd len hj hk hbuf hshort
  have hans := attemptAnswers_judge hj hbuf
  rcases judge_waits_or_whole junk.length len tail hk with hwait | ⟨payload, hi, lo, stop, more, hlen, rfl⟩
  · rwa [hwait] at hans
  · simp only [hbuf, List.length_append, List.length_cons, hlen] at hshort
    omega

/-! Handing out. -/

/-- The bytes of an emitted frame with more behind it. -/
theorem encFrame_append (cmd : Byte) (p rest : List Byte) :
    encFrame cmd p ++ rest = START :: cmd :: BitVec.ofNat 8 p.length ::
      (p ++ hiByte (checksum p) :: loByte (checksum p) :: STOP :: rest) := by
  simp [encFrame_eq, START, STOP]

/-- The verdict on the emitted frame of a command and payload behind `n` bytes of junk (R88). -/
def emittedVerdict (n : Nat) (cmd : Byte) (p : List Byte) : Verdict := okFrame n cmd (BitVec.ofNat 8 p.length) p

/-- The verdict on an emitted frame, with its length as a number. -/
theorem emittedVerdict_eq (n : Nat) (cmd : Byte) {p : List Byte} (hp : p.length ≤ 255) :
    emittedVerdict n cmd p = ⟨.ok, .noReason, n + p.length + 6, some ⟨n, cmd, BitVec.ofNat 8 p.length, p⟩⟩ := by
  rw [emittedVerdict, okFrame, lengthByte_toNat hp]

section EmittedFrame
variable {cmd : Byte} {p junk : List Byte} (hk : isKnown cmd = true) (hp : p.length ≤ 255) (hj : START ∉ junk)
include hk hp hj

/-- An emitted frame behind junk is `Ok`, whatever follows it (R88). -/
theorem tryExtract_encFrame (rest : List Byte) :
    tryExtract (junk ++ (encFrame cmd p ++ rest)) = .ok (emittedVerdict junk.length cmd p) := by
  rw [encFrame_append, tryExtract_junk hj, judge_good _ rest hk (lengthByte_toNat hp).symm, emittedVerdict]

/-- An attempt on an emitted frame behind junk hands it out and leaves what follows it (R88, R89). -/
theorem exec_rxAttempt_encFrame {s : State} {rest : List Byte} (hbuf : s.rxBuf = junk ++ (encFrame cmd p ++ rest)) :
    exec .rxAttempt s = .next { s with
      rxBuf := rest
      outputs := .attempted (emittedVerdict junk.length cmd p) false :: s.outputs } := by
  have hbehind : s.rxBuf.drop (emittedVerdict junk.length cmd p).consumed = rest := by
    rw [emittedVerdict_eq _ _ hp, hbuf, ← List.append_assoc]
    exact List.drop_left' (by simp [Nat.add_assoc])
  have hans : AttemptAnswers s _ := attemptAnswers_of_verdict (hbuf ▸ tryExtract_encFrame hk hp hj rest)
  rw [hans, State.afterAttempt, if_pos (show (emittedVerdict _ _ _).status = .ok from rfl), hbehind]

end EmittedFrame

/-- A length byte that counts the payload is the payload's length. -/
theorem eq_lengthByte {p : List Byte} {len : Byte} (h : p.length = len.toNat) :
    p.length ≤ 255 ∧ len = BitVec.ofNat 8 p.length := by
  have hlen := len.isLt
  refine ⟨by omega, BitVec.eq_of_toNat_eq ?_⟩
  rw [lengthByte_toNat (by omega), h]

/-- Settles O31: a good frame is an emitted one. -/
theorem attemptHandsOutAGoodFrame : Obligations.AttemptHandsOutAGoodFrame := by
  intro s junk payload rest cmd len hj hk hlen hbuf
  obtain ⟨hp, rfl⟩ := eq_lengthByte hlen
  have hframe : s.rxBuf = junk ++ (encFrame cmd payload ++ rest) := by rw [hbuf, encFrame_append]; rfl
  exact exec_rxAttempt_encFrame hk hp hj hframe

/-! What a verdict says of the buffer. -/

/-- Behind the start byte `judge` waits, rejects, or has found an emitted frame (R80). -/
theorem judge_cases (n : Nat) (rest : List Byte) :
    judge n rest = needMore ∨ (∃ r, judge n rest = invalidFrame r) ∨
      ∃ cmd p more, isKnown cmd = true ∧ p.length ≤ 255 ∧ START :: rest = encFrame cmd p ++ more ∧
        judge n rest = emittedVerdict n cmd p := by
  match rest with
  | [] => exact .inl rfl
  | cmd :: behind =>
    cases hk : isKnown cmd with
    | false => exact .inr (.inl ⟨.badCommand, judge_unknown n behind hk⟩)
    | true =>
      match behind with
      | [] => exact .inl (by rw [judge, if_pos hk])
      | len :: tail =>
        rcases judge_waits_or_whole n len tail hk with hwait | ⟨payload, hi, lo, stop, more, hlen, rfl⟩
        · exact .inl hwait
        · obtain ⟨hp, rfl⟩ := eq_lengthByte hlen
          rw [judge_whole n cmd _ hi lo stop payload more hk hlen]
          split_ifs with hpair hstop
          · exact .inr (.inl ⟨.badChecksum, rfl⟩)
          · exact .inr (.inl ⟨.badStop, rfl⟩)
          · obtain ⟨rfl, rfl⟩ := (fromBytes_eq_iff hi lo _).mp (not_not.mp hpair)
            obtain rfl := not_not.mp hstop
            exact .inr (.inr ⟨cmd, payload, more, hk, hp, (encFrame_append cmd payload more).symm, rfl⟩)

/-- A verdict waits, rejects, or is of an emitted frame that stands behind junk in the buffer. -/
theorem tryExtract_cases {m : Memory} {v : Verdict} (h : tryExtract m = .ok v) :
    v = needMore ∨ (∃ r, v = invalidFrame r) ∨
      ∃ junk cmd p more, START ∉ junk ∧ isKnown cmd = true ∧ p.length ≤ 255 ∧
        m = junk ++ (encFrame cmd p ++ more) ∧ v = emittedVerdict junk.length cmd p := by
  rcases start_split m with hno | ⟨junk, rest, hj, rfl⟩
  · rw [tryExtract_no_start hno] at h; cases h
    exact .inl rfl
  · rw [tryExtract_junk hj] at h; cases h
    rcases judge_cases junk.length rest with hwait | hreject | ⟨cmd, p, more, hk, hp, hrest, hv⟩
    · exact .inl hwait
    · exact .inr (.inl hreject)
    · exact .inr (.inr ⟨junk, cmd, p, more, hj, hk, hp, by rw [hrest], hv⟩)

/-- The record of an attempt carries the verdict of its buffer (R79). -/
theorem tryExtract_of_record {s t : State} {v : Verdict} {flushed : Bool} (h : rxAttempt s = .next t)
    (hout : t.outputs = .attempted v flushed :: s.outputs) : tryExtract s.rxBuf = .ok v := by
  obtain ⟨w, hw, rfl⟩ := rxAttempt_next h
  rcases concludeAttempt_cases w s with ⟨-, e⟩ | ⟨-, -, e⟩ | ⟨-, -, e⟩ <;> (rw [e] at hout; cases hout; exact hw)

/-- Settles O32: only the verdict of an emitted frame carries a frame, and that frame's attempt is known. -/
theorem handedOutFrameStoodInTheBuffer : Obligations.HandedOutFrameStoodInTheBuffer := by
  intro s t v flushed fr hrun hout hfr
  rcases tryExtract_cases (tryExtract_of_record hrun hout) with
    rfl | ⟨r, rfl⟩ | ⟨junk, cmd, p, more, hj, hk, hp, hbuf, rfl⟩
  · cases hfr
  · cases hfr
  · rw [exec_rxAttempt_encFrame hk hp hj hbuf] at hrun; cases hrun
    cases hout; cases hfr
    exact ⟨rfl, rfl, rfl, hk, (lengthByte_toNat hp).symm, rfl, junk, rfl, hj, by rw [hbuf, List.append_assoc]⟩

/-! What an attempt leaves. -/

/-- Settles O33: the three ways an attempt ends. -/
theorem flushExactlyOverTheCeiling : Obligations.FlushExactlyOverTheCeiling := by
  intro s v hv
  refine ⟨concludeAttempt v s, rxAttempt_of_verdict hv, ?_⟩
  rcases concludeAttempt_cases v s with ⟨hok, e⟩ | ⟨hnot, hover, e⟩ | ⟨hnot, hwithin, e⟩ <;> rw [e]
  · exact ⟨fun _ => rfl, fun hn => absurd hok hn, fun hn => absurd hok hn, fun hn => absurd hok hn⟩
  · exact ⟨fun hok => absurd hok hnot, fun _ _ => ⟨rfl, rfl⟩, fun _ hle => absurd hover (Nat.not_lt.mpr hle),
      fun _ => Nat.zero_le _⟩
  · exact ⟨fun hok => absurd hok hnot, fun _ hlt => absurd hwithin (Nat.not_le.mpr hlt), fun _ _ => ⟨rfl, rfl⟩,
      fun _ => hwithin⟩

/-- Settles O35: `judge` has decided on the bytes it has seen. -/
theorem verdictIsStableUnderExtension : Obligations.VerdictIsStableUnderExtension :=
  fun _ more _ hv hdecided => tryExtract_append more hv hdecided

/-- A buffer too short for what the verdict on its extension consumes still waits: a verdict it had decided on would be
the extension's (R93). -/
theorem tryExtract_needMore_of_append {m more : Memory} {w : Verdict} (hw : tryExtract (m ++ more) = .ok w)
    (hshort : m.length < w.consumed) : tryExtract m = .ok needMore := by
  obtain ⟨v, hv⟩ := tryExtract_total m
  have hundecided : v.status = .needMoreData := by
    by_contra hdecided
    rw [tryExtract_append more hv hdecided] at hw; cases hw
    exact absurd (tryExtract_consumed_le hv) (Nat.not_le.mpr hshort)
  rcases tryExtract_cases hv with rfl | ⟨r, rfl⟩ | ⟨junk, cmd, p, rest, -, -, -, -, rfl⟩
  · exact hv
  · cases hundecided
  · cases hundecided

/-- Behind junk, the first bytes of an emitted frame wait for the rest (R92). -/
theorem tryExtract_encFrame_prefix {cmd : Byte} {p junk sent unsent : List Byte} (hk : isKnown cmd = true)
    (hp : p.length ≤ 255) (hj : START ∉ junk) (hsplit : sent ++ unsent = encFrame cmd p)
    (hproper : sent.length < p.length + 6) : tryExtract (junk ++ sent) = .ok needMore := by
  have hwhole := tryExtract_encFrame hk hp hj []
  rw [List.append_nil, ← hsplit, ← List.append_assoc, emittedVerdict_eq _ _ hp] at hwhole
  refine tryExtract_needMore_of_append hwhole ?_
  rw [List.length_append]; simp only; omega

/-- Settles O36: the whole frame is `Ok`, so its proper prefixes wait. -/
theorem everyProperPrefixNeedsMore : Obligations.EveryProperPrefixNeedsMore := by
  intro cmd p junk more hk hp hj
  refine ⟨fun k hlt => ?proper, ?whole⟩
  case proper =>
    refine tryExtract_encFrame_prefix hk hp hj (List.take_append_drop k _) ?_
    rw [List.length_take]; omega
  case whole => rw [List.append_assoc, tryExtract_encFrame hk hp hj, emittedVerdict_eq _ _ hp]

/-! Several attempts. -/

/-- An attempt on an empty buffer waits and leaves its record, whatever the ceiling (R81, R90). -/
theorem exec_rxAttempt_empty {s : State} (hbuf : s.rxBuf = []) :
    exec .rxAttempt s = .next (s.report (.attempted needMore false)) := by
  have hans : AttemptAnswers s needMore := attemptAnswers_of_verdict (tryExtract_no_start (by simp [hbuf]))
  rw [hans, State.afterAttempt, if_neg (by decide), if_neg (by simp [hbuf])]
  rfl

/-- Settles O39: each frame in turn stands at the front with the rest behind it. -/
theorem twoFramesComeOutOneByOne : Obligations.TwoFramesComeOutOneByOne := by
  intro c₁ c₂ p₁ p₂ s hk₁ hk₂ hp₁ hp₂ hbuf
  have hempty : START ∉ ([] : List Byte) := List.not_mem_nil
  have hsecond : ∀ t : State, t.rxBuf = encFrame c₂ p₂ → t.rxBuf = [] ++ (encFrame c₂ p₂ ++ []) := by simp
  rw [execAll_cons (exec_rxAttempt_encFrame hk₁ hp₁ hempty hbuf),
    execAll_cons (exec_rxAttempt_encFrame hk₂ hp₂ hempty (hsecond _ rfl)), execAll_cons (exec_rxAttempt_empty rfl),
    emittedVerdict_eq _ _ hp₁, emittedVerdict_eq _ _ hp₂]
  simp [execAll, State.report, needMore]

/-- The record an attempt leaves on top is an `Ok` exactly if its verdict is. -/
theorem concludeAttempt_lastOk (v : Verdict) (s : State) :
    (concludeAttempt v s).lastOk = decide (v.status = .ok) := by
  rcases concludeAttempt_cases v s with ⟨-, e⟩ | ⟨-, -, e⟩ | ⟨-, -, e⟩ <;> (rw [e]; rfl)

/-- An `Ok` attempt takes a whole frame, at least 6 bytes, out of the buffer. -/
theorem rxFill_of_lastOk {s t : State} (hrun : rxAttempt s = .next t) (hok : t.lastOk = true) :
    t.rxFill + 6 ≤ s.rxFill := by
  obtain ⟨v, hv, rfl⟩ := rxAttempt_next hrun
  rw [concludeAttempt_lastOk, decide_eq_true_eq] at hok
  rcases tryExtract_cases hv with rfl | ⟨r, rfl⟩ | ⟨junk, cmd, p, more, hj, hk, hp, hbuf, rfl⟩
  · cases hok
  · cases hok
  · have hend := hrun.symm.trans (exec_rxAttempt_encFrame hk hp hj hbuf)
    injection hend with hend
    rw [hend]
    simp only [State.rxFill_eq, hbuf, List.length_append, encFrame_length]
    omega

/-- With fuel for more than its bytes by sixes a drain ends in an attempt that is not `Ok`. -/
theorem rxDrain_ends (fuel : Nat) (s : State) (h : s.rxFill < 6 * fuel) :
    ∃ t, rxDrain fuel s = .next t ∧ t.lastOk = false := by
  induction fuel generalizing s with
  | zero => omega
  | succ fuel ih =>
    obtain ⟨v, hv⟩ := tryExtract_total s.rxBuf
    have hrun := rxAttempt_of_verdict hv
    cases hok : (concludeAttempt v s).lastOk with
    | false => exact ⟨_, by rw [rxDrain, exec_rxAttempt, hrun]; simp [hok], hok⟩
    | true =>
      have hless := rxFill_of_lastOk hrun hok
      obtain ⟨t, hdrain, hend⟩ := ih (concludeAttempt v s) (by omega)
      exact ⟨t, by rw [rxDrain, exec_rxAttempt, hrun]; simpa [hok] using hdrain, hend⟩

/-- Settles O40: each `Ok` removes 6 bytes, so they run out within the fuel. -/
theorem drainTerminates : Obligations.DrainTerminates :=
  ⟨fun _ _ hrun hok => rxFill_of_lastOk hrun hok, fun s => rxDrain_ends _ s (by omega)⟩

end Sys2Proof.Machine
end

