-- ==== Sys2Proof/Proofs/FrameArrivals.lean ====
section
/-!
PROOF. A frame row of the table arriving on the wire (`43_command_catalog.md`): as a script of single operations (O46),
good (O41 to O43), with a wrong pair or stop byte (O44, O45), and what any arrival changes (O47).
-/
namespace Sys2Proof.Machine

/-- Settles O46: a frame kind is its bytes in one chunk, and a chunk is its script. -/
theorem frameArrivalIsItsScript : Obligations.FrameArrivalIsItsScript := by
  intro k f i s hi
  rw [exec_frameKind hi, execAll_chunkScript]

/-! Arrival with room for the frame. -/

theorem frameBytes_length (k : Byte) (f : FrameBody) : (frameBytes k f).length = f.payload.length + 6 := by
  simp [frameBytes]

/-- A body with its payload's own checksum pair and the stop byte is the encoder's (R67). -/
theorem frameBytes_eq_encFrame {f : FrameBody} (k : Byte) (hhi : f.checksumHi = hiByte (checksum f.payload))
    (hlo : f.checksumLo = loByte (checksum f.payload)) (hstop : f.stop = STOP) :
    frameBytes k f = encFrame k f.payload := by
  rw [encFrame, wrap, ← hhi, ← hlo, ← hstop]

section Arrival
variable {k : Byte} {f : FrameBody} {i : Instr} {s : State} (hi : frameKind k f = some i)
  (hroom : s.rxBuf.length + f.payload.length + 6 ≤ s.params.rxCap)
include hi hroom

/-- With room for the frame, its arrival is an attempt on the buffer with all its bytes pushed (R98). -/
theorem exec_frame_of_room : exec i s = exec .rxAttempt (s.withPushed (frameBytes k f)) := by
  have hfits : s.rxBuf.length + (frameBytes k f).length ≤ s.params.rxCap := by rw [frameBytes_length]; omega
  rw [exec_frameKind hi, rxChunk_fits hfits, exec_rxAttempt, State.withPushed]

/-- A good frame behind a buffer without a start byte is received whole and handed out (R88, R100(b)). -/
theorem exec_good_frame (hlen : f.payload.length ≤ 255) (hhi : f.checksumHi = hiByte (checksum f.payload))
    (hlo : f.checksumLo = loByte (checksum f.payload)) (hstop : f.stop = STOP) (hno : START ∉ s.rxBuf) :
    exec i s = .next { s with
      rxBuf := []
      outputs := .attempted ⟨.ok, .noReason, s.rxBuf.length + f.payload.length + 6,
        some ⟨s.rxBuf.length, k, BitVec.ofNat 8 f.payload.length, f.payload⟩⟩ false ::
        (List.replicate (f.payload.length + 6) (.pushed true) ++ s.outputs) } := by
  have hbuf : (s.withPushed (frameBytes k f)).rxBuf = s.rxBuf ++ (encFrame k f.payload ++ []) := by
    rw [List.append_nil, ← frameBytes_eq_encFrame k hhi hlo hstop, State.withPushed]
  rw [exec_frame_of_room hi hroom, exec_rxAttempt_encFrame (known_of_frameKind hi) hlen hno hbuf,
    emittedVerdict_eq _ _ hlen, ← frameBytes_length k f]
  rfl

end Arrival

/-- Settles O41: the nine generic codes. -/
theorem genericFramesAreHandedOut : Obligations.GenericFramesAreHandedOut := by
  intro f s hlen hhi hlo hstop hno hroom
  have good {k i} (hi : frameKind k f = some i) := exec_good_frame hi hroom hlen hhi hlo hstop hno
  exact ⟨good rfl, good rfl, good rfl, good rfl, good rfl, good rfl, good rfl, good rfl, good rfl⟩

/-- Settles O42: the nine function codes. -/
theorem functionFramesAreHandedOut : Obligations.FunctionFramesAreHandedOut := by
  intro f s hlen hhi hlo hstop hno hroom
  have good {k i} (hi : frameKind k f = some i) := exec_good_frame hi hroom hlen hhi hlo hstop hno
  exact ⟨good rfl, good rfl, good rfl, good rfl, good rfl, good rfl, good rfl, good rfl, good rfl⟩

/-- Settles O43: the four status-push codes. -/
theorem statusPushFramesAreHandedOut : Obligations.StatusPushFramesAreHandedOut := by
  intro f s hlen hhi hlo hstop hno hroom
  have good {k i} (hi : frameKind k f = some i) := exec_good_frame hi hroom hlen hhi hlo hstop hno
  exact ⟨good rfl, good rfl, good rfl, good rfl⟩

/-- Settles O44: the attempt on the pushed frame finds the wrong pair. -/
theorem frameWithBadChecksumIsInvalid : Obligations.FrameWithBadChecksumIsInvalid := by
  intro k f i s hi hlen hwrong hno hroom
  rw [exec_frame_of_room hi hroom]
  exact attemptRejectsBadChecksum _ s.rxBuf f.payload [] k (BitVec.ofNat 8 f.payload.length) f.checksumHi f.checksumLo
    f.stop hno (known_of_frameKind hi) (lengthByte_toNat hlen).symm rfl hwrong

/-- Settles O45: the attempt on the pushed frame finds the right pair and the wrong stop byte. -/
theorem frameWithBadStopIsInvalid : Obligations.FrameWithBadStopIsInvalid := by
  intro k f i s hi hlen hhi hlo hstop hno hroom
  rw [exec_frame_of_room hi hroom]
  refine attemptRejectsBadStop _ s.rxBuf f.payload [] k (BitVec.ofNat 8 f.payload.length) f.stop hno
    (known_of_frameKind hi) (lengthByte_toNat hlen).symm ?_ hstop
  rw [← hhi, ← hlo]
  rfl

/-! Arrival in any state. -/

/-- Settles O47: pushes, then an attempt on the buffer they leave, which ends in one of its three ways. -/
theorem frameArrivalLeavesTheRest : Obligations.FrameArrivalLeavesTheRest := by
  intro k f i s t hi h
  rw [exec_frameKind hi, rxChunk] at h
  obtain ⟨v, hv, rfl⟩ := rxAttempt_next h
  refine ⟨by simp, by simp, by simp, by simp, by simp [pushAll_rxOverrun], _, v, pushAll_rxBuf _ s, hv,
    fun a ha => by rw [pushAll_rxBuf]; exact Memory.read_extend ha, ?_⟩
  rcases concludeAttempt_cases v (pushAll (frameBytes k f) s) with ⟨hok, e⟩ | ⟨hnot, hover, e⟩ | ⟨hnot, hwithin, e⟩ <;>
    rw [e]
  · exact .inl ⟨hok, rfl⟩
  · exact .inr (.inl ⟨hnot, by rwa [pushAll_params] at hover, rfl⟩)
  · exact .inr (.inr ⟨hnot, by rwa [pushAll_params] at hwithin, rfl⟩)

end Sys2Proof.Machine
end

