-- ==== Sys2Proof/Proofs/LoopBack.lean ====
section
/-!
PROOF. The loop-back claim (`42_stream_reassembler.md` section 6, R92): an emitted frame pushed under any schedule of
attempts is handed out once, at its last byte (O37). The induction is over the schedule, for a buffer that holds the
junk and the part of the frame sent so far.
-/
namespace Sys2Proof.Machine

/-- The records of a reception that has not ended: an accepted push or an attempt that waits. -/
def WaitRecord (o : Output) : Prop := o = .pushed true ∨ o = .attempted needMore false

/-- Records, newest first, of a reception that ends once, in verdict `v`, with waiting attempts after it. -/
def HandsOutOnce (v : Verdict) (new : List Output) : Prop :=
  ∃ late early, new = late ++ .attempted v false :: early ∧
    (∀ o ∈ late, o = .attempted needMore false) ∧ (∀ o ∈ early, WaitRecord o)

/-- A script completes. It flushes nothing if the ceiling is at least `peak`, the greatest fill that waits; and if it
flushes nothing, it hands out once and leaves an empty buffer. -/
def LoopsBack (v : Verdict) (peak : Nat) (is : List Instr) (s : State) : Prop :=
  ∃ t new, execAll is s = .next t ∧ t.outputs = new ++ s.outputs ∧
    (peak ≤ s.params.rxCeiling → ∀ o ∈ new, o.isFlush = false) ∧
    ((∀ o ∈ new, o.isFlush = false) → t.rxBuf = [] ∧ t.rxOverrun = s.rxOverrun ∧ HandsOutOnce v new)

theorem WaitRecord.isFlush {o : Output} (h : WaitRecord o) : o.isFlush = false := by
  rcases h with rfl | rfl <;> rfl

/-- An instruction that leaves a waiting record may stand in front. -/
theorem LoopsBack.cons {v : Verdict} {peak : Nat} {i : Instr} {is : List Instr} {s u : State} {o : Output}
    (h : LoopsBack v peak is u) (hrun : exec i s = .next u) (hparams : u.params = s.params)
    (hover : u.rxOverrun = s.rxOverrun) (hout : u.outputs = o :: s.outputs) (ho : WaitRecord o) :
    LoopsBack v peak (i :: is) s := by
  obtain ⟨t, new, hrest, houts, hcalm, honce⟩ := h
  refine ⟨t, new ++ [o], (execAll_cons hrun is).trans hrest, by simp [houts, hout], fun hpeak => ?_, fun hno => ?_⟩
  · rw [List.forall_mem_append, List.forall_mem_singleton]
    exact ⟨hcalm (hparams ▸ hpeak), ho.isFlush⟩
  · rw [List.forall_mem_append] at hno
    obtain ⟨hbuf, hflag, late, early, rfl, hlate, hearly⟩ := honce hno.1
    exact ⟨hbuf, hflag.trans hover, late, early ++ [o], by simp, hlate,
      List.forall_mem_append.mpr ⟨hearly, List.forall_mem_singleton.mpr ho⟩⟩

/-- A flush in front leaves only the completion to show, if the ceiling is below the peak. -/
theorem loopsBack_of_flush {v : Verdict} {peak : Nat} {i : Instr} {is : List Instr} {s u t : State} {o : Output}
    {new : List Output} (hpeak : s.params.rxCeiling < peak) (hrun : exec i s = .next u)
    (hout : u.outputs = o :: s.outputs) (hflush : o.isFlush = true) (hrest : execAll is u = .next t)
    (houts : t.outputs = new ++ u.outputs) : LoopsBack v peak (i :: is) s := by
  refine ⟨t, new ++ [o], (execAll_cons hrun is).trans hrest, by simp [houts, hout], fun hle => ?_, fun hno => ?_⟩
  · exact absurd hpeak (Nat.not_lt.mpr hle)
  · have hquiet := hno o (List.mem_append_right _ List.mem_cons_self)
    rw [hflush] at hquiet
    cases hquiet

/-! The schedule. -/

/-- A schedule that pushes nothing is attempts only. -/
theorem receiveScript_of_no_bytes {schedule : List (Option Byte)} (h : scheduledBytes schedule = []) :
    receiveScript schedule = List.replicate schedule.length .rxAttempt := by
  have hattempts : schedule = List.replicate schedule.length none :=
    List.eq_replicate_iff.mpr ⟨rfl, List.filterMap_eq_nil_iff.mp h⟩
  rw [hattempts]
  simp [receiveScript]

/-- Attempts on an empty buffer wait, each with its record. -/
theorem execAll_attempts_of_empty (n : Nat) {s : State} (hbuf : s.rxBuf = []) :
    execAll (List.replicate n .rxAttempt) s = .next { s with
      outputs := List.replicate n (.attempted needMore false) ++ s.outputs } := by
  induction n generalizing s with
  | zero => rfl
  | succ n ih =>
    have hrun := exec_rxAttempt_empty hbuf
    rw [List.replicate_succ, execAll_cons hrun, ih (by rw [State.report_rxBuf, hbuf]), List.replicate_succ']
    simp [State.report]

section EmittedFrame
variable {cmd : Byte} {p junk : List Byte} (hk : isKnown cmd = true) (hp : p.length ≤ 255) (hj : START ∉ junk)
include hk hp hj

/-- With the whole frame in the buffer the first attempt hands it out, and those after it wait. -/
theorem loopsBack_of_whole {schedule : List (Option Byte)} {s : State} {sent : List Byte} (peak : Nat)
    (hbuf : s.rxBuf = junk ++ sent) (hsplit : sent ++ scheduledBytes schedule = encFrame cmd p)
    (hnone : scheduledBytes schedule = []) :
    LoopsBack (emittedVerdict junk.length cmd p) peak (receiveScript schedule ++ [.rxAttempt]) s := by
  rw [receiveScript_of_no_bytes hnone, ← List.replicate_succ', List.replicate_succ]
  have hwhole : s.rxBuf = junk ++ (encFrame cmd p ++ []) := by
    rw [hbuf, ← hsplit, hnone, List.append_nil, List.append_nil]
  have hrun := exec_rxAttempt_encFrame hk hp hj hwhole
  refine ⟨_, List.replicate schedule.length (.attempted needMore false) ++
      [.attempted (emittedVerdict junk.length cmd p) false],
    (execAll_cons hrun _).trans (execAll_attempts_of_empty _ rfl), by simp, fun _ => ?_, fun _ => ⟨rfl, rfl, ?_⟩⟩
  · rw [List.forall_mem_append, List.forall_mem_singleton]
    refine ⟨fun o ho => ?_, rfl⟩
    rw [List.eq_of_mem_replicate ho]
    rfl
  · exact ⟨_, [], rfl, fun o ho => List.eq_of_mem_replicate ho, by simp⟩

/-- An attempt before the last byte waits, and then flushes or leaves the buffer by its fill (R90, R91). -/
theorem exec_rxAttempt_unfinished {s : State} {sent unsent : List Byte} (hbuf : s.rxBuf = junk ++ sent)
    (hsplit : sent ++ unsent = encFrame cmd p) (hproper : sent.length < p.length + 6) :
    (s.params.rxCeiling < s.rxBuf.length ∧
      exec .rxAttempt s = .next ((s.setRxBuf []).report (.attempted needMore true))) ∨
    exec .rxAttempt s = .next (s.report (.attempted needMore false)) := by
  have hwait : tryExtract s.rxBuf = .ok needMore := hbuf ▸ tryExtract_encFrame_prefix hk hp hj hsplit hproper
  rw [exec_rxAttempt, rxAttempt_of_verdict hwait]
  rcases concludeAttempt_cases needMore s with ⟨hok, -⟩ | ⟨-, hover, e⟩ | ⟨-, -, e⟩
  · cases hok
  · exact .inl ⟨hover, by rw [e]⟩
  · exact .inr (by rw [e])

/-- A schedule that pushes what is left of the frame, and an attempt behind it, loop back. -/
theorem loopsBack_schedule (schedule : List (Option Byte)) {s : State} {sent : List Byte}
    (hbuf : s.rxBuf = junk ++ sent) (hsplit : sent ++ scheduledBytes schedule = encFrame cmd p)
    (hroom : junk.length + p.length + 6 ≤ s.params.rxCap) :
    LoopsBack (emittedVerdict junk.length cmd p) (junk.length + p.length + 5)
      (receiveScript schedule ++ [.rxAttempt]) s := by
  have hlengths := congrArg List.length hsplit
  rw [List.length_append, encFrame_length] at hlengths
  induction schedule generalizing s sent with
  | nil => exact loopsBack_of_whole hk hp hj _ hbuf hsplit rfl
  | cons op schedule ih =>
    cases op with
    | some b =>
      have hsent : (sent ++ [b]) ++ scheduledBytes schedule = encFrame cmd p := by
        rw [List.append_assoc]; exact hsplit
      have hfill : s.rxFill < s.params.rxCap := by
        simp only [scheduledBytes, List.filterMap_cons, id, List.length_cons] at hlengths
        rw [State.rxFill_eq, hbuf, List.length_append]; omega
      have hpush := rxPush_of_room b hfill
      have hpushed : (rxPush b s).rxBuf = junk ++ (sent ++ [b]) := by
        rw [hpush, State.report_rxBuf, State.setRxBuf_rxBuf, Memory.append, hbuf, List.append_assoc]
      refine (ih hpushed hsent (by rwa [rxPush_params]) ?_).cons (exec_rxPush b s) (rxPush_params b s)
        (by rw [hpush]; rfl) (by rw [hpush]; rfl) (.inl rfl)
      rw [← List.length_append, hsent, encFrame_length]
    | none =>
      by_cases hnone : scheduledBytes schedule = []
      · exact loopsBack_of_whole hk hp hj _ hbuf hsplit hnone
      · have hleft := List.length_pos_iff.mpr hnone
        change sent.length + (scheduledBytes schedule).length = p.length + 6 at hlengths
        change LoopsBack _ _ (.rxAttempt :: (receiveScript schedule ++ [.rxAttempt])) s
        rcases exec_rxAttempt_unfinished hk hp hj hbuf hsplit (by omega) with ⟨hover, hrun⟩ | hrun
        · obtain ⟨t, new, hrest, houts, -⟩ := receive_all (schedule ++ [none])
            ((s.setRxBuf []).report (.attempted needMore true))
          rw [receiveScript, List.map_append] at hrest
          rw [hbuf, List.length_append] at hover
          exact loopsBack_of_flush (by omega) hrun rfl rfl hrest houts
        · have hlater := ih (s := s.report (.attempted needMore false)) hbuf hsplit hroom hlengths
          exact hlater.cons hrun rfl rfl rfl (.inr rfl)

end EmittedFrame

/-- Settles O37: the schedule from the start of the frame, with nothing of it sent. -/
theorem loopBackUnderEverySchedule : Obligations.LoopBackUnderEverySchedule := by
  intro cmd p s schedule hk hp hj hroom hbytes
  have hloop := loopsBack_schedule hk hp hj schedule (List.append_nil _).symm hbytes hroom
  rw [emittedVerdict_eq _ _ hp] at hloop
  exact hloop

end Sys2Proof.Machine
end
